-- ==== Sys2Proof/Word.lean ====
section
/-! DEFINITION. The word, address, byte and register-number types of the vm16 core (R6, R8, R20). -/

namespace Sys2Proof

/-- A memory cell, a register and an instruction are each one 16-bit word (R6, R8: `Word16`). -/
abbrev Word := BitVec 16

/-- A word address, 0x0000 to 0x7FFF: the width of the program counter and of the address space (R8: `Addr15`). -/
abbrev Addr := BitVec 15

/-- An entry of the output stream (R29). -/
abbrev Byte := BitVec 8

/-- A general register's number, as a 3-bit register field selects it (R20). -/
abbrev Reg := BitVec 3

end Sys2Proof
end

