-- ==== Sys2Proof/Syntax.lean ====
section
/-! DEFINITION. The instruction set: opcodes, MATH operations, and one constructor of `Instr` per row of the opcode table. -/

namespace Sys2Proof

/-- The two opcodes of format ORI (R62). -/
inductive OriOp where
  | lui | auipc
  deriving DecidableEq, Repr

/-- The five opcodes of format ORRI (R63). -/
inductive OrriOp where
  | jalr | beq | lw | sw | addi
  deriving DecidableEq, Repr

/-- The eight opcodes (R68), grouped by the format each selects (R61). -/
inductive Opcode where
  | ori (op : OriOp)
  | orri (op : OrriOp)
  | math
  deriving DecidableEq, Repr

/-- The eight operations that share the MATH opcode (R69). -/
inductive Alt where
  | add | sub | sll | srl | nand | and | or | lt
  deriving DecidableEq, Repr

/-- The opcodes in the order of R68's table. -/
def Opcode.all : List Opcode :=
  [.ori .lui, .ori .auipc, .orri .jalr, .orri .beq, .orri .lw, .orri .sw, .orri .addi, .math]

/-- The MATH operations in the order of R69's table. -/
def Alt.all : List Alt :=
  [.add, .sub, .sll, .srl, .nand, .and, .or, .lt]

/-- One constructor per row of the opcode table (R70). The fields are the decoder's (R65): `im10` is the unsigned
10-bit field, `im7` is already sign-extended to a word (R11). -/
inductive Instr where
  /-- R100: load upper immediate. -/
  | lui (rd : Reg) (im10 : BitVec 10)
  /-- R101: add upper immediate to pc. -/
  | auipc (rd : Reg) (im10 : BitVec 10)
  /-- R110: jump and link register. -/
  | jalr (rd r1 : Reg) (im7 : Word)
  /-- R111: branch if equal. -/
  | beq (rd r1 : Reg) (im7 : Word)
  /-- R120: load word. -/
  | lw (rd r1 : Reg) (im7 : Word)
  /-- R121: store word. -/
  | sw (rd r1 : Reg) (im7 : Word)
  /-- R130: add immediate. -/
  | addi (rd r1 : Reg) (im7 : Word)
  /-- R141: addition. -/
  | add (rd r1 r2 : Reg)
  /-- R142: subtraction. -/
  | sub (rd r1 r2 : Reg)
  /-- R143: shift left logical. -/
  | sll (rd r1 r2 : Reg)
  /-- R144: shift right logical. -/
  | srl (rd r1 r2 : Reg)
  /-- R145: bitwise NAND. -/
  | nand (rd r1 r2 : Reg)
  /-- R146: bitwise AND. -/
  | and (rd r1 r2 : Reg)
  /-- R147: bitwise OR. -/
  | or (rd r1 r2 : Reg)
  /-- R148: set if less than, unsigned. -/
  | lt (rd r1 r2 : Reg)
  deriving DecidableEq, Repr

/-- The opcode of an instruction (R68). -/
def Instr.opcode : Instr → Opcode
  | .lui _ _ => .ori .lui
  | .auipc _ _ => .ori .auipc
  | .jalr _ _ _ => .orri .jalr
  | .beq _ _ _ => .orri .beq
  | .lw _ _ _ => .orri .lw
  | .sw _ _ _ => .orri .sw
  | .addi _ _ _ => .orri .addi
  | .add _ _ _ => .math
  | .sub _ _ _ => .math
  | .sll _ _ _ => .math
  | .srl _ _ _ => .math
  | .nand _ _ _ => .math
  | .and _ _ _ => .math
  | .or _ _ _ => .math
  | .lt _ _ _ => .math

/-- The MATH operation of an instruction, none outside format ORRAR (R69). -/
def Instr.alt : Instr → Option Alt
  | .lui _ _ => none
  | .auipc _ _ => none
  | .jalr _ _ _ => none
  | .beq _ _ _ => none
  | .lw _ _ _ => none
  | .sw _ _ _ => none
  | .addi _ _ _ => none
  | .add _ _ _ => some .add
  | .sub _ _ _ => some .sub
  | .sll _ _ _ => some .sll
  | .srl _ _ _ => some .srl
  | .nand _ _ _ => some .nand
  | .and _ _ _ => some .and
  | .or _ _ _ => some .or
  | .lt _ _ _ => some .lt

/-- The register an instruction names as its destination (R24, R25): none for BEQ and SW. JALR's write is
skipped when it is register 0 (R110). -/
def Instr.destination : Instr → Option Reg
  | .lui rd _ => some rd
  | .auipc rd _ => some rd
  | .jalr rd _ _ => some rd
  | .beq _ _ _ => none
  | .lw rd _ _ => some rd
  | .sw _ _ _ => none
  | .addi rd _ _ => some rd
  | .add rd _ _ => some rd
  | .sub rd _ _ => some rd
  | .sll rd _ _ => some rd
  | .srl rd _ _ => some rd
  | .nand rd _ _ => some rd
  | .and rd _ _ => some rd
  | .or rd _ _ => some rd
  | .lt rd _ _ => some rd

/-- The registers an instruction reads (R24, R25). -/
def Instr.sources : Instr → List Reg
  | .lui _ _ => []
  | .auipc _ _ => []
  | .jalr _ r1 _ => [r1]
  | .beq rd r1 _ => [rd, r1]
  | .lw _ r1 _ => [r1]
  | .sw rd r1 _ => [rd, r1]
  | .addi _ r1 _ => [r1]
  | .add _ r1 r2 => [r1, r2]
  | .sub _ r1 r2 => [r1, r2]
  | .sll _ r1 r2 => [r1, r2]
  | .srl _ r1 r2 => [r1, r2]
  | .nand _ r1 r2 => [r1, r2]
  | .and _ r1 r2 => [r1, r2]
  | .or _ r1 r2 => [r1, r2]
  | .lt _ r1 r2 => [r1, r2]

/-- The ORI instruction of an opcode of that format (R62). -/
def Instr.ofOri (op : OriOp) (rd : Reg) (im10 : BitVec 10) : Instr :=
  match op with
  | .lui => .lui rd im10
  | .auipc => .auipc rd im10

/-- The ORRI instruction of an opcode of that format (R63). -/
def Instr.ofOrri (op : OrriOp) (rd r1 : Reg) (im7 : Word) : Instr :=
  match op with
  | .jalr => .jalr rd r1 im7
  | .beq => .beq rd r1 im7
  | .lw => .lw rd r1 im7
  | .sw => .sw rd r1 im7
  | .addi => .addi rd r1 im7

/-- The MATH instruction of an operation (R64, R69). -/
def Instr.ofAlt (alt : Alt) (rd r1 r2 : Reg) : Instr :=
  match alt with
  | .add => .add rd r1 r2
  | .sub => .sub rd r1 r2
  | .sll => .sll rd r1 r2
  | .srl => .srl rd r1 r2
  | .nand => .nand rd r1 r2
  | .and => .and rd r1 r2
  | .or => .or rd r1 r2
  | .lt => .lt rd r1 r2

end Sys2Proof
end

