-- ==== Sys2Proof/Config.lean ====
section
/-! DEFINITION. The named parameters of R7 that are fixed for a machine, with the values the spec takes by default.
The reset draws `initRegs`, `initMem` and `initIR` are the argument of `State.resetWith`. -/

namespace Sys2Proof

/-- `OPCODE_MAP` and `ALT_MAP` (R7, R68, R69): the 3-bit value of each opcode and of each MATH operation. -/
structure CodeMaps where
  opcode : Opcode → BitVec 3
  alt : Alt → BitVec 3

/-- What R68 and R69 require of the two maps: each is a bijection onto the eight values. -/
def CodeMaps.Bijective (m : CodeMaps) : Prop :=
  Function.Bijective m.opcode ∧ Function.Bijective m.alt

/-- `DATA_OOR` (R7, R45): what LW or SW does at an effective address of 0x8000 or more. -/
inductive DataOor where
  /-- raise the model fault `DataAddressOutOfRange` (the default) -/
  | fault
  /-- reach the cell whose address is bits 14:0 of the effective address -/
  | wrap
  deriving DecidableEq, Repr

/-- The default `OPCODE_MAP`: the order of R68's table (D1, log 5). DESIGN CHOICE of the spec. Unsafe: see log 5. -/
def Config.opcodeValue : Opcode → BitVec 3
  | .ori .lui => 0
  | .ori .auipc => 1
  | .orri .jalr => 2
  | .orri .beq => 3
  | .orri .lw => 4
  | .orri .sw => 5
  | .orri .addi => 6
  | .math => 7

/-- The default `ALT_MAP`: the order of R69's table (D2, log 6). DESIGN CHOICE of the spec. Unsafe: see log 6. -/
def Config.altValue : Alt → BitVec 3
  | .add => 0
  | .sub => 1
  | .sll => 2
  | .srl => 3
  | .nand => 4
  | .and => 5
  | .or => 6
  | .lt => 7

/-- The maps the machine decodes with. -/
def Config.codeMaps : CodeMaps := { opcode := Config.opcodeValue, alt := Config.altValue }

/-- The value of `DATA_OOR` the machine runs with: the spec's default (D6, log 8). Safe. -/
def Config.dataOor : DataOor := .fault

end Sys2Proof
end

