-- ==== Sys2Proof/WellFormed.lean ====
section
/-! DEFINITION. Which instructions the encoding admits: the one operand a word can be too wide for is im7. -/

namespace Sys2Proof

/-- The value of an ORRI immediate lies in the range of a 7-bit two's-complement field, -64 to 63 (R63, R65). -/
def im7InRange (im7 : Word) : Bool :=
  decide (-64 ≤ im7.toInt ∧ im7.toInt ≤ 63)

/-- An instruction whose every operand fits its field. Register numbers and im10 fit by their types. -/
def Instr.wellFormed : Instr → Bool
  | .lui _ _ => true
  | .auipc _ _ => true
  | .jalr _ _ im7 => im7InRange im7
  | .beq _ _ im7 => im7InRange im7
  | .lw _ _ im7 => im7InRange im7
  | .sw _ _ im7 => im7InRange im7
  | .addi _ _ im7 => im7InRange im7
  | .add _ _ _ => true
  | .sub _ _ _ => true
  | .sll _ _ _ => true
  | .srl _ _ _ => true
  | .nand _ _ _ => true
  | .and _ _ _ => true
  | .or _ _ _ => true
  | .lt _ _ _ => true

end Sys2Proof
end

