-- ==== Sys2Proof/Decode.lean ====
section
/-! DEFINITION. The decoder (R65 to R70), and after it the encoders (R71). Both take the code maps as an argument
(D1: a model must take the map as an argument); the machine uses the defaults. -/

namespace Sys2Proof

/-- Sign extension of a 7-bit value, by copying its bit 6 upward (R9: `sext16`). -/
def sext16 (v : BitVec 7) : Word := v.signExtend 16

/-- Zero extension of a narrower value (R9: `zext16`). -/
def zext16 {n : Nat} (v : BitVec n) : Word := v.setWidth 16

/-- The record the decoder extracts from every word, whichever format applies (R65). -/
structure Fields where
  op : BitVec 3
  rd : Reg
  r1 : Reg
  alt : BitVec 3
  r2 : Reg
  im10 : BitVec 10
  im7 : Word
  deriving DecidableEq, Repr

/-- The decoder of R65: a total function; all fields are extracted unconditionally. -/
def decodeFields (w : Word) : Fields :=
  { op := w.extractLsb' 0 3
    rd := w.extractLsb' 3 3
    r1 := w.extractLsb' 6 3
    alt := w.extractLsb' 9 3
    r2 := w.extractLsb' 13 3
    im10 := w.extractLsb' 6 10
    im7 := sext16 (w.extractLsb' 9 7) }

/-- The opcode a map gives a 3-bit value; none where the map assigns the value to no opcode (R68, R73). -/
def CodeMaps.opcodeOf? (m : CodeMaps) (v : BitVec 3) : Option Opcode :=
  Opcode.all.find? (fun o => m.opcode o == v)

/-- The MATH operation a map gives a 3-bit value; none where the map assigns the value to no operation (R69). -/
def CodeMaps.altOf? (m : CodeMaps) (v : BitVec 3) : Option Alt :=
  Alt.all.find? (fun a => m.alt a == v)

/-- Why a word stands for no instruction. Neither reason arises under bijective maps (R73). -/
inductive DecodeReject where
  /-- the map assigns the op value to no opcode -/
  | unassignedOpcode (op : BitVec 3)
  /-- the map assigns the alt value of a MATH word to no operation -/
  | unassignedAlt (alt : BitVec 3)
  deriving DecidableEq, Repr

/-- The instruction of a field record under given maps (R61 to R64, R68, R69). Only the fields of the word's own
format are read; in particular bit 12 of a MATH word is not (R66). -/
def Fields.instr (m : CodeMaps) (d : Fields) : Except DecodeReject Instr :=
  match m.opcodeOf? d.op with
  | none => .error (.unassignedOpcode d.op)
  | some (.ori o) => .ok (.ofOri o d.rd d.im10)
  | some (.orri o) => .ok (.ofOrri o d.rd d.r1 d.im7)
  | some .math =>
    match m.altOf? d.alt with
    | none => .error (.unassignedAlt d.alt)
    | some a => .ok (.ofAlt a d.rd d.r1 d.r2)

/-- The instruction a word stands for under given maps. -/
def decodeWith (m : CodeMaps) (w : Word) : Except DecodeReject Instr :=
  (decodeFields w).instr m

/-- The instruction a word stands for under the default maps (R70). -/
def decode (w : Word) : Except DecodeReject Instr :=
  decodeWith Config.codeMaps w

/-- A row of R70's table: a word `w` is the row's instruction where `w &&& mask = value`. -/
structure MatchRow where
  opcode : Opcode
  alt : Option Alt
  mask : Word
  value : Word
  deriving DecidableEq, Repr

/-- The table of R70, written out from the spec (the default maps). -/
def matchRows : List MatchRow :=
  [ ⟨.ori .lui, none, 0x0007, 0x0000⟩,
    ⟨.ori .auipc, none, 0x0007, 0x0001⟩,
    ⟨.orri .jalr, none, 0x0007, 0x0002⟩,
    ⟨.orri .beq, none, 0x0007, 0x0003⟩,
    ⟨.orri .lw, none, 0x0007, 0x0004⟩,
    ⟨.orri .sw, none, 0x0007, 0x0005⟩,
    ⟨.orri .addi, none, 0x0007, 0x0006⟩,
    ⟨.math, some .add, 0x0E07, 0x0007⟩,
    ⟨.math, some .sub, 0x0E07, 0x0207⟩,
    ⟨.math, some .sll, 0x0E07, 0x0407⟩,
    ⟨.math, some .srl, 0x0E07, 0x0607⟩,
    ⟨.math, some .nand, 0x0E07, 0x0807⟩,
    ⟨.math, some .and, 0x0E07, 0x0A07⟩,
    ⟨.math, some .or, 0x0E07, 0x0C07⟩,
    ⟨.math, some .lt, 0x0E07, 0x0E07⟩ ]

/-- A word selects a row of R70's table. -/
def MatchRow.selects (r : MatchRow) (w : Word) : Bool :=
  w &&& r.mask == r.value

/-- An argument of an encoder placed in a field of `width` bits at bit `lo`, masked to the field (R71). -/
def placeField (width lo : Nat) (v : Int) : Word :=
  (BitVec.ofInt width v).setWidth 16 <<< lo

/-- R71: pack an ORI word. Each argument is taken modulo its field's width. -/
def encodeORI (op rd im10 : Int) : Word :=
  placeField 3 0 op ||| placeField 3 3 rd ||| placeField 10 6 im10

/-- R71: pack an ORRI word. Each argument is taken modulo its field's width; -1 packs as 0x7F in im7. -/
def encodeORRI (op rd r1 im7 : Int) : Word :=
  placeField 3 0 op ||| placeField 3 3 rd ||| placeField 3 6 r1 ||| placeField 7 9 im7

/-- R71: pack an ORRAR word. Each argument is taken modulo its field's width; bit 12 is 0 (R66). -/
def encodeORRAR (op rd r1 alt r2 : Int) : Word :=
  placeField 3 0 op ||| placeField 3 3 rd ||| placeField 3 6 r1 ||| placeField 3 9 alt ||| placeField 3 13 r2

/-- The ORI word of an opcode under given maps. -/
def encodeOri (m : CodeMaps) (op : OriOp) (rd : Reg) (im10 : BitVec 10) : Word :=
  encodeORI (m.opcode (.ori op)).toNat rd.toNat im10.toNat

/-- The ORRI word of an opcode under given maps. -/
def encodeOrri (m : CodeMaps) (op : OrriOp) (rd r1 : Reg) (im7 : Word) : Word :=
  encodeORRI (m.opcode (.orri op)).toNat rd.toNat r1.toNat im7.toInt

/-- The MATH word of an operation under given maps. -/
def encodeMath (m : CodeMaps) (alt : Alt) (rd r1 r2 : Reg) : Word :=
  encodeORRAR (m.opcode .math).toNat rd.toNat r1.toNat (m.alt alt).toNat r2.toNat

/-- The word of an instruction under given maps. An im7 out of range is truncated to its low 7 bits (R71). -/
def encodeWith (m : CodeMaps) : Instr → Word
  | .lui rd im10 => encodeOri m .lui rd im10
  | .auipc rd im10 => encodeOri m .auipc rd im10
  | .jalr rd r1 im7 => encodeOrri m .jalr rd r1 im7
  | .beq rd r1 im7 => encodeOrri m .beq rd r1 im7
  | .lw rd r1 im7 => encodeOrri m .lw rd r1 im7
  | .sw rd r1 im7 => encodeOrri m .sw rd r1 im7
  | .addi rd r1 im7 => encodeOrri m .addi rd r1 im7
  | .add rd r1 r2 => encodeMath m .add rd r1 r2
  | .sub rd r1 r2 => encodeMath m .sub rd r1 r2
  | .sll rd r1 r2 => encodeMath m .sll rd r1 r2
  | .srl rd r1 r2 => encodeMath m .srl rd r1 r2
  | .nand rd r1 r2 => encodeMath m .nand rd r1 r2
  | .and rd r1 r2 => encodeMath m .and rd r1 r2
  | .or rd r1 r2 => encodeMath m .or rd r1 r2
  | .lt rd r1 r2 => encodeMath m .lt rd r1 r2

/-- The word of an instruction under the default maps. -/
def encode (i : Instr) : Word := encodeWith Config.codeMaps i

/-- The word of a table row's instruction whose low `nbits` bits are `w` and whose other bits are 0. -/
def tableWord (nbits w : Nat) : Word := BitVec.ofNat 16 (w % 2 ^ nbits)

/-- The instruction the decoder reads from an instruction's bits, numbered as the opcode table numbers them. One
word holds the whole instruction (R60), so the memory's layout of a word does not enter. -/
def decodeTableWord (nbits w : Nat) : Option Instr :=
  (decode (tableWord nbits w)).toOption

end Sys2Proof
end

