-- ==== Sys2Proof/Machine/State.lean ====
section
/-! DEFINITION. The machine's state (R32), how a step can stop, and reset (R33). -/

namespace Sys2Proof.Machine

/-- The memory array (R30, R40) as storage: entries with strictly rising indices. The cell at word address `a` is
entries `2a` (bits 7:0) and `2a+1` (bits 15:8); which half has the lower index is a storage choice that no operation
shows (R43). DESIGN CHOICE. Safe: log 4. -/
abbrev Memory := List Host.Cell

/-- A model fault (R10: `raise Fault(reason)`). There is one, and it is no trap the hardware takes (R160, R162). -/
inductive Fault where
  /-- Raised by LW and SW under `DATA_OOR = fault` when the effective address `ea` is 0x8000 or more (R45, R162).
  The record holds `ea`, the instruction's address and its word. Safe: the model stops where the source gives no
  meaning (log 8). -/
  | dataAddressOutOfRange (ea : Word) (address : Addr) (word : Word)
  deriving DecidableEq, Repr

/-- Why a step has no meaning. No word is refused (R73), so no step answers with one. -/
inductive Refusal where
  /-- Raised by an arm of `exec` whose instruction has no meaning yet; there is none. Safe. -/
  | notModelled (mnemonic : String)
  deriving DecidableEq, Repr

/-- The machine state `(x[0..7], pc, ir, mem, out, fault)` of R32. -/
structure State where
  /-- the eight general registers (R20); register 0 is written and then forced to 0 within a step (R22) -/
  x : Vector Word 8
  /-- the program counter (R26) -/
  pc : Addr
  /-- the instruction register (R27) -/
  ir : Word
  /-- the memory array (R30) -/
  mem : Memory
  /-- the output stream, oldest entry first (R29) -/
  out : List Byte
  /-- the fault record; none unless the machine is faulted (R28, R162) -/
  fault : Option Fault
  deriving DecidableEq, Repr

/-- The three statuses (R28). -/
inductive Status where
  | running | halted | faulted
  deriving DecidableEq, Repr

/-- Where programs are loaded and execution starts (R6, R33). -/
def loadAddress : Addr := 0x0010#15

/-- The free draws of reset (R7, R33): registers 1 to 7, the instruction register and memory. -/
structure Draws where
  initRegs : Vector Word 7
  initIR : Word
  initMem : Memory
  deriving DecidableEq, Repr

/-- The machine after construction, for any value of the draws (R33, R200, R201). -/
def State.resetWith (d : Draws) : State :=
  { x := #v[0, d.initRegs[0], d.initRegs[1], d.initRegs[2], d.initRegs[3], d.initRegs[4], d.initRegs[5], d.initRegs[6]]
    pc := loadAddress
    ir := d.initIR
    mem := d.initMem
    out := []
    fault := none }

/-- The draw `State.reset` names: zeros. DESIGN CHOICE. Unsafe: logs 1, 2 and 3. -/
def zeroDraws : Draws :=
  { initRegs := #v[0, 0, 0, 0, 0, 0, 0], initIR := 0, initMem := [] }

/-- The machine right after reset, for the draw `zeroDraws`. -/
def State.reset : State := State.resetWith zeroDraws

/-- What a step or a meaning answers. -/
abbrev Result := Host.Outcome State Fault Refusal

end Sys2Proof.Machine
end

