-- ==== Sys2Proof/Machine/Ops.lean ====
section
/-! DEFINITION. The named operations over memory and registers, the model fault, and the phases of a step that are
not the instruction's own effect (R205). The core has no exception to take and none to return from (R160, R161):
`raiseOutOfRange` is the one way an instruction stops. -/

namespace Sys2Proof.Machine

/-! ### Storage -/

/-- What an index that storage does not list reads as. DESIGN CHOICE. Unsafe: log 3. -/
def unlistedByte : Byte := 0#8

/-- The number of storage indices: two for each of the 32768 cells (R30). -/
def storageSize : Nat := 65536

/-- The half of a cell stored at an index. -/
def Memory.byteAt : Memory → Nat → Byte
  | [], _ => unlistedByte
  | (k', v) :: m, k => if k' = k then v else Memory.byteAt m k

/-- Store half a cell at an index, keeping the canonical form. -/
def Memory.setByte : Memory → Nat → Byte → Memory
  | [], k, v => if v = unlistedByte then [] else [(k, v)]
  | (k', v') :: m, k, v =>
    if k < k' then (if v = unlistedByte then (k', v') :: m else (k, v) :: (k', v') :: m)
    else if k = k' then (if v = unlistedByte then m else (k, v) :: m)
    else (k', v') :: Memory.setByte m k v

/-- The canonical form: indices strictly rising, inside the storage, and no entry equal to what an unlisted index
reads as. -/
abbrev Memory.wf (m : Memory) : Prop :=
  m.Pairwise (fun c d => c.1 < d.1) ∧ ∀ c ∈ m, c.1 < storageSize ∧ c.2 ≠ unlistedByte

/-- The storage index of bits 7:0 of the cell at `a`. -/
def lowIndex (a : Addr) : Nat := 2 * a.toNat

/-- The storage index of bits 15:8 of the cell at `a`. -/
def highIndex (a : Addr) : Nat := 2 * a.toNat + 1

/-- `MemRead(a, 1)` (R10, R42). It changes nothing (R47). -/
def Memory.read (m : Memory) (a : Addr) : Word :=
  m.byteAt (highIndex a) ++ m.byteAt (lowIndex a)

/-- `MemWrite(a, 1, v)` (R10, R42). -/
def Memory.write (m : Memory) (a : Addr) (v : Word) : Memory :=
  (m.setByte (lowIndex a) (v.extractLsb' 0 8)).setByte (highIndex a) (v.extractLsb' 8 8)

/-- The words `ws` written at `a`, `a+1`, … in order (the loop of R202). -/
def Memory.writeWords (m : Memory) (a : Addr) : List Word → Memory
  | [] => m
  | w :: ws => Memory.writeWords (m.write a w) (a + 1) ws

/-! ### Registers, program counter, memory of a state -/

/-- `x[r]` (R10). Register 0 is ordinary storage within a step; R22's force keeps it 0 between steps. -/
def State.reg (s : State) (r : Reg) : Word := s.x[r.toNat]'r.isLt

/-- `x[r] <- v` (R10). -/
def State.setReg (s : State) (r : Reg) (v : Word) : State := { s with x := s.x.set r.toNat v r.isLt }

/-- `pc <- t`: bits 14:0 of the value are kept (R10, R26; D4, log 10). -/
def State.setPc (s : State) (t : Word) : State := { s with pc := t.setWidth 15 }

/-- `MemWrite(a, 1, v)` on the state's memory. -/
def State.store (s : State) (a : Addr) (v : Word) : State := { s with mem := s.mem.write a v }

/-- The status: a function of the fault record and pc (R28). -/
def State.status (s : State) : Status :=
  match s.fault with
  | some _ => .faulted
  | none => if s.pc = 0#15 then .halted else .running

/-! ### The model fault -/

/-- `raise Fault(DataAddressOutOfRange(ea))` (R45, R162). It is raised during phase 3, when `ir` holds the
instruction's word and pc the address after the instruction's. -/
def raiseOutOfRange (s : State) (ea : Word) : Result :=
  .fault (.dataAddressOutOfRange ea (s.pc - 1) s.ir)

/-! ### The phases around the instruction (R205) -/

/-- Phase 1: fetch (R27). -/
def State.fetch (s : State) : State := { s with ir := s.mem.read s.pc }

/-- Phase 2: advance, modulo 2^15 (R26; D4, log 10). -/
def State.advance (s : State) : State := { s with pc := s.pc + 1 }

/-- Phases 1 and 2: the state in which the instruction executes. -/
def State.beginStep (s : State) : State := s.fetch.advance

/-- Phase 4: register 0 is forced to 0 (R22). -/
def State.forceZero (s : State) : State := s.setReg 0#3 0#16

/-- The cell of the output port (R6, R41). -/
def outputPort : Addr := 0x0001#15

/-- Phase 5: a non-zero cell at 0x0001 has its low byte appended to the output stream and is cleared (R170). -/
def State.portPhase (s : State) : State :=
  if s.mem.read outputPort ≠ 0#16 then
    { s with out := s.out ++ [(s.mem.read outputPort).extractLsb' 0 8], mem := s.mem.write outputPort 0#16 }
  else s

/-- Phases 4 and 5. -/
def State.endStep (s : State) : State := s.forceZero.portPhase

end Sys2Proof.Machine
end

