-- ==== Sys2Proof/Machine/Operands.lean ====
section
/-! DEFINITION. The operand forms: immediates (R67), the link value (R110), effective addresses (R45), and the shared
shapes of the instructions over them. -/

namespace Sys2Proof.Machine

/-- The immediate of LUI and AUIPC: `zext16(im10) << 6` (R67). -/
def upperImmediate (im10 : BitVec 10) : Word := zext16 im10 <<< 6

/-- JALR's link: `zext16(pc) + 1` in 16 bits, with pc already advanced (R110; D5, log 11). -/
def State.link (s : State) : Word := zext16 s.pc + 1

/-- `x[r1] + im7` modulo 2^16: the effective address of LW and SW (R45), and JALR's target (R110). -/
def State.displaced (s : State) (r1 : Reg) (im7 : Word) : Word := s.reg r1 + im7

/-- A taken BEQ's target: `zext16(pc) + im7` (R111). -/
def State.branchTarget (s : State) (im7 : Word) : Word := zext16 s.pc + im7

/-- The cell a data access at effective address `ea` reaches; none where the access raises the model fault (R45). -/
def dataCell (oor : DataOor) (ea : Word) : Option Addr :=
  if ea.toNat ≤ 0x7FFF then some (ea.setWidth 15)
  else
    match oor with
    | .fault => none
    | .wrap => some (ea.setWidth 15)

/-- The shape of LW under either value of `DATA_OOR` (R120). -/
def State.loadWord (oor : DataOor) (rd r1 : Reg) (im7 : Word) (s : State) : Result :=
  match dataCell oor (s.displaced r1 im7) with
  | some a => .next (s.setReg rd (s.mem.read a))
  | none => raiseOutOfRange s (s.displaced r1 im7)

/-- The shape of SW under either value of `DATA_OOR` (R121). -/
def State.storeWord (oor : DataOor) (rd r1 : Reg) (im7 : Word) (s : State) : Result :=
  match dataCell oor (s.displaced r1 im7) with
  | some a => .next (s.store a (s.reg rd))
  | none => raiseOutOfRange s (s.displaced r1 im7)

/-- The shape of the eight MATH operations: both sources are read, then `x[rd]` is written (R140). -/
def State.mathOp (f : Word → Word → Word) (rd r1 r2 : Reg) (s : State) : Result :=
  .next (s.setReg rd (f (s.reg r1) (s.reg r2)))

end Sys2Proof.Machine
end

