-- ==== Sys2Proof/Machine/Flags.lean ====
section
/-! DEFINITION. The core has no flags and no condition codes (R31): BEQ compares two registers and LT writes a
register. Those two comparisons stand here. -/

namespace Sys2Proof.Machine

/-- BEQ's condition: all 16 bits of the two registers are equal (R111). -/
def State.branchTaken (s : State) (rd r1 : Reg) : Bool := s.reg rd == s.reg r1

/-- `a <u b` as a word: 1 or 0 (R9, R148). -/
def lessThanUnsigned (a b : Word) : Word := if a.toNat < b.toNat then 1#16 else 0#16

end Sys2Proof.Machine
end

