-- ==== Sys2Proof/Machine/Control.lean ====
section
/-! DEFINITION. JALR and BEQ (`41_jalr_beq.md`). -/

namespace Sys2Proof.Machine

/-- JALR's link write, skipped for register 0 (R110). -/
def State.writeLink (s : State) (rd : Reg) : State := if rd ≠ 0#3 then s.setReg rd s.link else s

/-- R110: the link is written first, and the target is computed from the register as it stands after that write. -/
def execJalr (rd r1 : Reg) (im7 : Word) (s : State) : Result :=
  .next ((s.writeLink rd).setPc ((s.writeLink rd).displaced r1 im7))

/-- R111: `if x[rd] == x[r1]: pc <- zext16(pc) + im7`, with pc already advanced. -/
def execBeq (rd r1 : Reg) (im7 : Word) (s : State) : Result :=
  .next (if s.branchTaken rd r1 then s.setPc (s.branchTarget im7) else s)

end Sys2Proof.Machine
end

