-- ==== Sys2Proof/Machine/Immediate.lean ====
section
/-! DEFINITION. ADDI (`43_addi.md`). -/

namespace Sys2Proof.Machine

/-- R130: `x[rd] <- x[r1] + im7` modulo 2^16. -/
def execAddi (rd r1 : Reg) (im7 : Word) (s : State) : Result :=
  .next (s.setReg rd (s.displaced r1 im7))

end Sys2Proof.Machine
end

