-- ==== Sys2Proof/Machine/LoadStore.lean ====
section
/-! DEFINITION. LW and SW (`42_lw_sw.md`), under the machine's value of `DATA_OOR`. -/

namespace Sys2Proof.Machine

/-- R120: `x[rd] <- MemRead(ea, 1)`. -/
def execLw (rd r1 : Reg) (im7 : Word) (s : State) : Result := s.loadWord Config.dataOor rd r1 im7

/-- R121: `MemWrite(ea, 1, x[rd])`. -/
def execSw (rd r1 : Reg) (im7 : Word) (s : State) : Result := s.storeWord Config.dataOor rd r1 im7

end Sys2Proof.Machine
end

