-- ==== Sys2Proof/Machine/Math.lean ====
section
/-! DEFINITION. The eight MATH operations (`44_math.md`). -/

namespace Sys2Proof.Machine

/-- R143: `(a << b)[15:0]` for b < 16 and 0 for b >= 16; the amount is all of b (D11, log 12). -/
def shiftLeft (a b : Word) : Word := if b.toNat < 16 then a <<< b.toNat else 0#16

/-- R144: `a >> b` with zero fill for b < 16 and 0 for b >= 16; the amount is all of b (D11, log 12). -/
def shiftRight (a b : Word) : Word := if b.toNat < 16 then a >>> b.toNat else 0#16

/-- R141. -/
def execAdd (rd r1 r2 : Reg) (s : State) : Result := s.mathOp (fun a b => a + b) rd r1 r2

/-- R142. -/
def execSub (rd r1 r2 : Reg) (s : State) : Result := s.mathOp (fun a b => a - b) rd r1 r2

/-- R143. -/
def execSll (rd r1 r2 : Reg) (s : State) : Result := s.mathOp shiftLeft rd r1 r2

/-- R144. -/
def execSrl (rd r1 r2 : Reg) (s : State) : Result := s.mathOp shiftRight rd r1 r2

/-- R145. -/
def execNand (rd r1 r2 : Reg) (s : State) : Result := s.mathOp (fun a b => ~~~(a &&& b)) rd r1 r2

/-- R146. -/
def execAnd (rd r1 r2 : Reg) (s : State) : Result := s.mathOp (fun a b => a &&& b) rd r1 r2

/-- R147. -/
def execOr (rd r1 r2 : Reg) (s : State) : Result := s.mathOp (fun a b => a ||| b) rd r1 r2

/-- R148. -/
def execLt (rd r1 r2 : Reg) (s : State) : Result := s.mathOp lessThanUnsigned rd r1 r2

end Sys2Proof.Machine
end

