-- ==== Sys2Proof/Machine/UpperImm.lean ====
section
/-! DEFINITION. LUI and AUIPC (`40_lui_auipc.md`). -/

namespace Sys2Proof.Machine

/-- R100: `x[rd] <- zext16(im10) << 6`. -/
def execLui (rd : Reg) (im10 : BitVec 10) (s : State) : Result :=
  .next (s.setReg rd (upperImmediate im10))

/-- R101: `x[rd] <- zext16(pc) + (zext16(im10) << 6)`, with pc already advanced. -/
def execAuipc (rd : Reg) (im10 : BitVec 10) (s : State) : Result :=
  .next (s.setReg rd (zext16 s.pc + upperImmediate im10))

end Sys2Proof.Machine
end

