-- ==== Sys2Proof/Machine/Dispatch.lean ====
section
/-! DEFINITION. Phase 3 of a step: one arm per instruction, each one call of its meaning. -/

namespace Sys2Proof.Machine

/-- Execute an instruction in the state after fetch and advance (R205, phase 3): `ir` holds its word and pc the
address after its own. -/
def exec (i : Instr) (s : State) : Host.Outcome State Fault Refusal :=
  match i with
  | .lui rd im10 => Sys2Proof.Machine.execLui rd im10 s
  | .auipc rd im10 => Sys2Proof.Machine.execAuipc rd im10 s
  | .jalr rd r1 im7 => Sys2Proof.Machine.execJalr rd r1 im7 s
  | .beq rd r1 im7 => Sys2Proof.Machine.execBeq rd r1 im7 s
  | .lw rd r1 im7 => Sys2Proof.Machine.execLw rd r1 im7 s
  | .sw rd r1 im7 => Sys2Proof.Machine.execSw rd r1 im7 s
  | .addi rd r1 im7 => Sys2Proof.Machine.execAddi rd r1 im7 s
  | .add rd r1 r2 => Sys2Proof.Machine.execAdd rd r1 r2 s
  | .sub rd r1 r2 => Sys2Proof.Machine.execSub rd r1 r2 s
  | .sll rd r1 r2 => Sys2Proof.Machine.execSll rd r1 r2 s
  | .srl rd r1 r2 => Sys2Proof.Machine.execSrl rd r1 r2 s
  | .nand rd r1 r2 => Sys2Proof.Machine.execNand rd r1 r2 s
  | .and rd r1 r2 => Sys2Proof.Machine.execAnd rd r1 r2 s
  | .or rd r1 r2 => Sys2Proof.Machine.execOr rd r1 r2 s
  | .lt rd r1 r2 => Sys2Proof.Machine.execLt rd r1 r2 s

end Sys2Proof.Machine
end

