-- ==== Sys2Proof/Machine/Cycle.lean ====
section
/-! DEFINITION. One step (R205), under any code maps, and the placing of an instruction where a step fetches. -/

namespace Sys2Proof.Machine

/-- Phase 3: decode `ir` and execute. A word the maps do not assign does nothing in this phase (R73; for an
unassigned alt value, log 7). -/
def executeWord (m : CodeMaps) (s : State) : Result :=
  match decodeWith m s.ir with
  | .ok i => exec i s
  | .error _ => .next s

/-- Phases 4 and 5 after an instruction that did not fault. -/
def Result.endStep : Result → Result
  | .next s => .next s.endStep
  | .fault r => .fault r
  | .refused r => .refused r

/-- R205: a faulted machine has no next step, a halted one stays as it is (R206), a running one fetches, advances,
executes, forces register 0 and serves the output port. -/
def cycle (m : CodeMaps) (s : State) : Result :=
  match s.fault with
  | some r => .fault r
  | none => if s.pc = 0#15 then .next s else Result.endStep (executeWord m s.beginStep)

/-- A state whose next step fetches `w`: the word stands at pc. A machine that is not running would not fetch, so
it is first put at the load address with no fault recorded (log 17). -/
def State.placeFetchWord (s : State) (w : Word) : State :=
  match s.status with
  | .running => s.store s.pc w
  | .halted => { s with pc := loadAddress }.store loadAddress w
  | .faulted => { s with pc := loadAddress, fault := none }.store loadAddress w

end Sys2Proof.Machine
end

