-- ==== Sys2Proof/Machine/Step.lean ====
section
/-! DEFINITION. The machine's step, under the default code maps. -/

namespace Sys2Proof.Machine

/-- One step of the machine (R205, R212). -/
def step (s : State) : Host.Outcome State Fault Refusal := cycle Config.codeMaps s

/-- `s` with an opcode-table instruction stored where its next step fetches: the low `nbits` bits of the word are
`w`, the others 0. -/
def State.withFetchWord (s : State) (nbits w : Nat) : State := s.placeFetchWord (tableWord nbits w)

end Sys2Proof.Machine
end

