-- ==== Sys2Proof/Machine/Assembler.lean ====
section
/-! DEFINITION. The toolchain's spelling of instructions (R4, R21, R80 to R92): from tokens to the words the loader
takes. Scanning characters into tokens, diagnostics and the symbol table's implementation are out of scope (R5);
the two facts about spelling that rules state, number literals and the keyword table, stand here. -/

namespace Sys2Proof.Machine

/-! ### Names (R21, R80, R81) -/

/-- The register names in order; a register's number is its position (R21). -/
def registerNames : List String := ["zero", "ra", "sp", "fp", "t0", "t1", "t2", "t3"]

/-- The register a name stands for (R21). -/
def registerOfName? (name : String) : Option Reg :=
  (registerNames.findIdx? (fun n => n == name)).map (BitVec.ofNat 3)

/-- The 15 machine mnemonics, grouped by the format of their operands (R81, R84). -/
inductive Mnemonic where
  | ori (op : OriOp)
  | orri (op : OrriOp)
  | math (alt : Alt)
  deriving DecidableEq, Repr

/-- The directives (R81). -/
inductive Directive where
  | nop | halt | word | la | li
  deriving DecidableEq, Repr

/-- The spelling of each mnemonic (R81). -/
def mnemonicNames : List (String × Mnemonic) :=
  [ ("lui", .ori .lui), ("auipc", .ori .auipc), ("jalr", .orri .jalr), ("beq", .orri .beq), ("lw", .orri .lw),
    ("sw", .orri .sw), ("addi", .orri .addi), ("add", .math .add), ("sub", .math .sub), ("sll", .math .sll),
    ("srl", .math .srl), ("nand", .math .nand), ("and", .math .and), ("or", .math .or), ("lt", .math .lt) ]

/-- The spelling of each directive (R81). -/
def directiveNames : List (String × Directive) :=
  [("nop", .nop), ("halt", .halt), (".word", .word), ("la", .la), ("li", .li)]

/-- The three kinds of numeric literal (R81). -/
inductive Radix where
  | octal | decimal | hexadecimal
  deriving DecidableEq, Repr

/-- The base of a kind of literal. -/
def Radix.base : Radix → Nat
  | .octal => 8
  | .decimal => 10
  | .hexadecimal => 16

/-- The token kinds (R81). A number carries the values of its digits, most significant first. -/
inductive Token where
  | eof
  | comma
  | minus
  | mnemonic (m : Mnemonic)
  | directive (d : Directive)
  | register (r : Reg)
  | ident (name : String)
  | rawString (text : String)
  | number (radix : Radix) (digits : List Nat)
  deriving DecidableEq, Repr

/-- The token of a word of letters: a keyword of the fixed table, else an identifier (R80, R81). -/
def wordToken (word : String) : Token :=
  match mnemonicNames.find? (fun e => e.1 == word) with
  | some e => .mnemonic e.2
  | none =>
    match directiveNames.find? (fun e => e.1 == word) with
    | some e => .directive e.2
    | none =>
      match registerOfName? word with
      | some r => .register r
      | none => .ident word

/-! ### Number literals (R82) -/

/-- The value of a digit's character in a base; none where it is no digit of that base. Capital hexadecimal digits
are taken as digits (PRESUMED, safe: log 22). -/
def digitValue? (base : Nat) (c : Char) : Option Nat :=
  let v :=
    if '0' ≤ c ∧ c ≤ '9' then some (c.toNat - '0'.toNat)
    else if 'a' ≤ c ∧ c ≤ 'f' then some (c.toNat - 'a'.toNat + 10)
    else if 'A' ≤ c ∧ c ≤ 'F' then some (c.toNat - 'A'.toNat + 10)
    else none
  v.filter (fun d => decide (d < base))

/-- The values of a run of digits; none where one is no digit of the base. -/
def digitValues? (base : Nat) : List Char → Option (List Nat)
  | [] => some []
  | c :: cs =>
    match digitValue? base c, digitValues? base cs with
    | some d, some ds => some (d :: ds)
    | _, _ => none

/-- The token of a number's spelling: `0x` begins a hexadecimal literal, `0` followed by digits an octal one, any
other leading digit a decimal one (R82). A spelling with no digits, or a digit its kind lacks, is none (log 22). -/
def numberToken? : List Char → Option Token
  | [] => none
  | '0' :: 'x' :: c :: cs => (digitValues? 16 (c :: cs)).map (Token.number .hexadecimal)
  | '0' :: c :: cs => (digitValues? 8 (c :: cs)).map (Token.number .octal)
  | c :: cs => (digitValues? 10 (c :: cs)).map (Token.number .decimal)

/-- The value of a literal's digits (R82). -/
def literalValue (radix : Radix) (digits : List Nat) : Nat :=
  digits.foldl (fun v d => v * radix.base + d) 0

/-! ### Source lines and the operand grammar (R83, R84, R86 to R90) -/

/-- One label definition, machine instruction or directive, with its operands as written. -/
inductive Line where
  /-- a label, defined by a bare identifier (R83) -/
  | label (name : String)
  /-- `lui`, `auipc` (R84) -/
  | ori (op : OriOp) (rd : Reg) (imm10 : Int)
  /-- `jalr`, `beq`, `lw`, `sw`, `addi` (R84) -/
  | orri (op : OrriOp) (rd r1 : Reg) (imm7 : Int)
  /-- the eight MATH operations (R84) -/
  | math (alt : Alt) (rd r1 r2 : Reg)
  /-- R86 -/
  | nop
  /-- R87 -/
  | halt
  /-- R88 -/
  | word (imm16 : Int)
  /-- R89 -/
  | la (rd : Reg) (label : String)
  /-- R90 -/
  | li (rd : Reg) (imm16 : Int)
  deriving DecidableEq, Repr

/-- The assembler's errors (R82, R83, R92). Each is fatal: no image is returned. A refusal by the toolchain, never
by the core. Safe. -/
inductive AsmError where
  /-- operands not separated by a comma (R80, R92) -/
  | missingComma
  /-- an operand of another kind than the grammar's (R84, R92) -/
  | wrongOperandKind
  /-- a unit that begins with no mnemonic, directive or label (R92) -/
  | unrecognisedMnemonic
  /-- a literal outside its operand's bounds (R82, R85) -/
  | literalTooLarge
  /-- the same label defined by two lines, whose positions are given, the original first (R83) -/
  | duplicateLabel (name : String) (original duplicate : Nat)
  /-- a label that no line defines (R83) -/
  | undefinedLabel (name : String)
  /-- the sizing loop did not settle (R91); never raised, see log 19 -/
  | sizingUnsettled
  deriving DecidableEq, Repr

/-- Take a register operand. -/
def takeRegister : List Token → Except AsmError (Reg × List Token)
  | .register r :: ts => .ok (r, ts)
  | _ => .error .wrongOperandKind

/-- Take the comma between two operands. -/
def takeComma : List Token → Except AsmError (List Token)
  | .comma :: ts => .ok ts
  | _ => .error .missingComma

/-- Take a number operand: repeated minus signs toggle the sign (R82). -/
def takeNumber : Bool → List Token → Except AsmError (Int × List Token)
  | negative, .minus :: ts => takeNumber (!negative) ts
  | negative, .number radix ds :: ts =>
    .ok (if negative then -(literalValue radix ds : Int) else literalValue radix ds, ts)
  | _, _ => .error .wrongOperandKind

/-- Take a label operand. -/
def takeLabel : List Token → Except AsmError (String × List Token)
  | .ident name :: ts => .ok (name, ts)
  | _ => .error .wrongOperandKind

/-- Take a register operand and the comma after it. -/
def takeRegisterComma (ts : List Token) : Except AsmError (Reg × List Token) := do
  let (r, ts) ← takeRegister ts
  let ts ← takeComma ts
  return (r, ts)

/-- The line that begins with a token, and the tokens after it (R83, R84). -/
def parseLine (t : Token) (ts : List Token) : Except AsmError (Line × List Token) :=
  match t with
  | .ident name => .ok (.label name, ts)
  | .mnemonic (.ori op) => do
    let (rd, ts) ← takeRegisterComma ts
    let (v, ts) ← takeNumber false ts
    return (.ori op rd v, ts)
  | .mnemonic (.orri op) => do
    let (rd, ts) ← takeRegisterComma ts
    let (r1, ts) ← takeRegisterComma ts
    let (v, ts) ← takeNumber false ts
    return (.orri op rd r1 v, ts)
  | .mnemonic (.math alt) => do
    let (rd, ts) ← takeRegisterComma ts
    let (r1, ts) ← takeRegisterComma ts
    let (r2, ts) ← takeRegister ts
    return (.math alt rd r1 r2, ts)
  | .directive .nop => .ok (.nop, ts)
  | .directive .halt => .ok (.halt, ts)
  | .directive .word => do
    let (v, ts) ← takeNumber false ts
    return (.word v, ts)
  | .directive .la => do
    let (rd, ts) ← takeRegisterComma ts
    let (name, ts) ← takeLabel ts
    return (.la rd name, ts)
  | .directive .li => do
    let (rd, ts) ← takeRegisterComma ts
    let (v, ts) ← takeNumber false ts
    return (.li rd v, ts)
  | .eof => .error .unrecognisedMnemonic
  | .comma => .error .unrecognisedMnemonic
  | .minus => .error .unrecognisedMnemonic
  | .register _ => .error .unrecognisedMnemonic
  | .rawString _ => .error .unrecognisedMnemonic
  | .number _ _ => .error .unrecognisedMnemonic

/-- The lines of a token list up to its end of file. A line takes at least one token, so the number of tokens is
enough fuel. -/
def parseLines : Nat → List Token → Except AsmError (List Line)
  | _, [] => .ok []
  | 0, _ :: _ => .error .unrecognisedMnemonic
  | fuel + 1, t :: ts =>
    if t = .eof then .ok []
    else do
      let (l, rest) ← parseLine t ts
      let ls ← parseLines fuel rest
      return l :: ls

/-- The lines of a program text given as tokens (R80, R84). -/
def parse (ts : List Token) : Except AsmError (List Line) := parseLines ts.length ts

/-! ### Layout (R83, R91) -/

/-- Labels and the addresses they are bound to. -/
abbrev LabelTable := List (String × Nat)

/-- The address of a label; none where the table lacks it. -/
def LabelTable.address? (t : LabelTable) (name : String) : Option Nat :=
  (t.find? (fun e => e.1 == name)).map (fun e => e.2)

/-- The bound of the one-word form of `la` and `li`: the value fits in 6 bits (R89). -/
def shortBound : Nat := 64

/-- The 16-bit pattern of a literal: a negative one as two's complement (R85). -/
def literalPattern (v : Int) : Word := BitVec.ofInt 16 v

/-- The number of words a line emits (R84, R86 to R90). A label the table lacks has the placeholder address 0
(R91). -/
def Line.size (t : LabelTable) : Line → Nat
  | .label _ => 0
  | .ori _ _ _ => 1
  | .orri _ _ _ _ => 1
  | .math _ _ _ _ => 1
  | .nop => 1
  | .halt => 1
  | .word _ => 1
  | .la _ name => if (t.address? name).getD 0 < shortBound then 1 else 2
  | .li _ v => if (literalPattern v).toNat < shortBound then 1 else 2

/-- One layout pass: each label is bound to the address of the next word (R83), with `la` sized from the table `t`
of the pass before. -/
def layout (t : LabelTable) : Nat → List Line → LabelTable
  | _, [] => []
  | a, .label name :: ls => (name, a) :: layout t a ls
  | a, l :: ls => layout t (a + l.size t) ls

/-- The sizing loop of R91, option (b): layout passes until no label address changes. -/
def settle (ls : List Line) : Nat → LabelTable → Option LabelTable
  | 0, _ => none
  | fuel + 1, t =>
    if layout t loadAddress.toNat ls = t then some t else settle ls fuel (layout t loadAddress.toNat ls)

/-- The label addresses of a program: the loop begins with every label at the placeholder address (log 19). Each
pass but the last makes at least one `la` longer, so the number of lines bounds the passes. -/
def labelAddresses (ls : List Line) : Option LabelTable := settle ls (ls.length + 2) []

/-- No label is defined twice; `seen` holds the labels before position `k` (R83). -/
def checkLabels (seen : List (String × Nat)) : Nat → List Line → Except AsmError Unit
  | _, [] => .ok ()
  | k, .label name :: ls =>
    match seen.find? (fun e => e.1 == name) with
    | some e => .error (.duplicateLabel name e.2 k)
    | none => checkLabels ((name, k) :: seen) (k + 1) ls
  | k, _ :: ls => checkLabels seen (k + 1) ls

/-! ### Emission (R84 to R90, R92) -/

/-- The one-word form of `la` and `li`: `addi rd, zero, v` (R89; D20). -/
def loadShort (rd : Reg) (v : Word) : List Instr := [.addi rd 0 v]

/-- The two-word form: `lui rd, v[15:6]` then `addi rd, rd, v[5:0]` (R89; D20). -/
def loadLong (rd : Reg) (v : Word) : List Instr :=
  [.lui rd (v.extractLsb' 6 10), .addi rd rd (zext16 (v.extractLsb' 0 6))]

/-- The instructions of `li` for a 16-bit pattern (R90). -/
def loadLiteral (rd : Reg) (v : Word) : List Instr :=
  if v.toNat < shortBound then loadShort rd v else loadLong rd v

/-- The instructions of `la` for a label's address; the value loaded is its low 16 bits (R89; log 20). -/
def loadLabel (rd : Reg) (address : Nat) : List Instr :=
  if address < shortBound then loadShort rd (BitVec.ofNat 16 address) else loadLong rd (BitVec.ofNat 16 address)

/-- The words a line emits, given the label addresses; or its error (R84 to R90). -/
def Line.words (m : CodeMaps) (t : LabelTable) : Line → Except AsmError (List Word)
  | .label _ => .ok []
  | .ori op rd v =>
    if 0 ≤ v ∧ v ≤ 1023 then .ok [encodeWith m (.ofOri op rd (BitVec.ofInt 10 v))] else .error .literalTooLarge
  | .orri op rd r1 v =>
    if -64 ≤ v ∧ v ≤ 63 then .ok [encodeWith m (.ofOrri op rd r1 (literalPattern v))] else .error .literalTooLarge
  | .math alt rd r1 r2 => .ok [encodeWith m (.ofAlt alt rd r1 r2)]
  | .nop => .ok [encodeWith m (.addi 0 0 0)]
  | .halt => .ok [encodeWith m (.jalr 0 0 0)]
  | .word v => if -32768 ≤ v ∧ v ≤ 65535 then .ok [literalPattern v] else .error .literalTooLarge
  | .la rd name =>
    match t.address? name with
    | some a => .ok ((loadLabel rd a).map (encodeWith m))
    | none => .error (.undefinedLabel name)
  | .li rd v =>
    if -32768 ≤ v ∧ v ≤ 65535 then .ok ((loadLiteral rd (literalPattern v)).map (encodeWith m))
    else .error .literalTooLarge

/-- The words of a program's lines in order; the first error ends it (R92). -/
def emit (m : CodeMaps) (t : LabelTable) : List Line → Except AsmError (List Word)
  | [] => .ok []
  | l :: ls => do
    let ws ← l.words m t
    let rest ← emit m t ls
    return ws ++ rest

/-- Assemble a program's lines into the words the loader takes; on any error no image is returned (R91, R92). -/
def assembleWith (m : CodeMaps) (ls : List Line) : Except AsmError (List Word) := do
  checkLabels [] 0 ls
  match labelAddresses ls with
  | some t => emit m t ls
  | none => .error .sizingUnsettled

/-- Assemble under the default code maps. -/
def assemble (ls : List Line) : Except AsmError (List Word) := assembleWith Config.codeMaps ls

/-- Parse and assemble a program text given as tokens. -/
def assembleTokens (ts : List Token) : Except AsmError (List Word) := do
  let ls ← parse ts
  assemble ls

end Sys2Proof.Machine
end

