-- ==== Sys2Proof/Machine/RunControl.lean ====
section
/-! DEFINITION. The host's operations (R180): construct is `State.resetWith`; load, single-step and run-to-completion
stand here; inspect and read output are the fields of `State` and `State.status` (R182). -/

namespace Sys2Proof.Machine

/-- R202: load the words at 0x0010 onward, or fail and change nothing; the Bool is the result the host gets back.
The host calls it once, after construction and before the first step (R203; D17, log 16). -/
def State.load (s : State) (ws : List Word) : Bool × State :=
  if loadAddress.toNat + ws.length > 0x8000 then (false, s)
  else (true, { s with mem := s.mem.writeWords loadAddress ws })

/-- R212: one step as the host sees it. A fault leaves every other piece of state as it was and is recorded, so
the machine is then faulted and stays so (R28, R162; log 15). No step is refused. -/
def State.singleStep (s : State) : State :=
  match step s with
  | .next t => t
  | .fault r => { s with fault := some r }
  | .refused _ => s

/-- R211: step while the status is running; none if `fuel` steps do not end the run (R213). A faulted machine ends
the loop as well, and the host gets that state back. -/
def State.runToCompletion : Nat → State → Option State
  | 0, s => if s.status = .running then none else some s
  | fuel + 1, s => if s.status = .running then State.runToCompletion fuel s.singleStep else some s

end Sys2Proof.Machine
end

