-- ==== Sys2Proof/Safety.lean ====
section
/-! DEFINITION. The terms the statements use: the invariant of a state between steps, and what an instruction leaves
alone. -/

namespace Sys2Proof.Safety

open Sys2Proof.Machine

/-- What holds of a state between steps: register 0 is 0 (R22, R33), and memory has its canonical form. -/
structure Inv (s : State) : Prop where
  zero : s.reg 0#3 = 0#16
  memory : s.mem.wf

/-- Every register but those in `ds` is unchanged. -/
def RegsKeptBut (ds : List Reg) (s t : State) : Prop :=
  ∀ q : Reg, q ∉ ds → t.reg q = s.reg q

/-- Every memory cell but those in `cs` is unchanged. -/
def CellsKeptBut (cs : List Addr) (s t : State) : Prop :=
  ∀ a : Addr, a ∉ cs → t.mem.read a = s.mem.read a

/-- The instruction register, the output stream and the fault record are unchanged. -/
def RestKept (s t : State) : Prop :=
  t.ir = s.ir ∧ t.out = s.out ∧ t.fault = s.fault

/-- Only register `rd` may differ: no other register, no memory cell, not the pc, not the rest of the state. -/
def OnlyRegister (rd : Reg) (s t : State) : Prop :=
  RegsKeptBut [rd] s t ∧ CellsKeptBut [] s t ∧ t.pc = s.pc ∧ RestKept s t

/-- Only the pc may differ, and any register in `ds`: no other register, no memory cell, not the rest of the state. -/
def OnlyPcAnd (ds : List Reg) (s t : State) : Prop :=
  RegsKeptBut ds s t ∧ CellsKeptBut [] s t ∧ RestKept s t

/-- Only the memory cell at `a` may differ: no other cell, no register, not the pc, not the rest of the state. -/
def OnlyCell (a : Addr) (s t : State) : Prop :=
  RegsKeptBut [] s t ∧ CellsKeptBut [a] s t ∧ t.pc = s.pc ∧ RestKept s t

/-- Under any bijective code maps, a word whose op (and, for MATH, alt) is the given one decodes to `f` of its
fields (R61 to R65, R68, R69). -/
def DecodesAs (o : Opcode) (a : Option Alt) (f : Fields → Instr) : Prop :=
  ∀ (m : CodeMaps) (w : Word), m.Bijective → (decodeFields w).op = m.opcode o →
    (∀ x, a = some x → (decodeFields w).alt = m.alt x) → decodeWith m w = .ok (f (decodeFields w))

/-- What the eight MATH statements share (R140): under any bijective maps a word with op = MATH and the given alt is
the operation, bit 12 whatever it is (the spec's decision D3; log 14); the operation completes from every state, reads
both sources before it writes, writes `f` of them to its destination and nothing else; the end of the step forces
register 0. -/
def MathResult (alt : Alt) (f : Nat → Nat → Nat) : Prop :=
  DecodesAs .math (some alt) (fun d => .ofAlt alt d.rd d.r1 d.r2) ∧
  ∀ (s : State) (rd r1 r2 : Reg), ∃ t, exec (.ofAlt alt rd r1 r2) s = .next t ∧ OnlyRegister rd s t ∧
    (t.reg rd).toNat = f (s.reg r1).toNat (s.reg r2).toNat ∧ t.endStep.reg 0#3 = 0#16

/-- Run instructions one after the other, each in the state the one before it left. -/
def execSeq : List Instr → State → Result
  | [], s => .next s
  | i :: is, s =>
    match exec i s with
    | .next t => execSeq is t
    | .fault r => .fault r
    | .refused r => .refused r

end Sys2Proof.Safety
end

