-- ==== Sys2Proof/Certificates/Slice0/Obligations.lean ====
section
/-! DEFINITION. The statements for the provers. Every statement about an instruction's meaning speaks of phase 3 of a
step, where `ir` holds the instruction's word and pc the address after its own (R205); the statements about a step
carry it to the whole of R205. -/

open Sys2Proof Sys2Proof.Machine Sys2Proof.Safety

/-! ### Encoding -/

/-- Under any bijective code maps (R68, R69) every word decodes to a well-formed instruction; under the default maps
exactly one row of R70's table selects it, and that row names the instruction's opcode and operation (R70, R73). -/
def Obligations.EveryWordDecodesToItsRow : Prop :=
  (∀ (m : CodeMaps) (w : Word), m.Bijective → ∃ i, decodeWith m w = .ok i ∧ i.wellFormed = true) ∧
  ∀ w : Word, ∃ i r, decode w = .ok i ∧ matchRows.filter (fun r => r.selects w) = [r] ∧
    r.opcode = i.opcode ∧ r.alt = i.alt

/-- Decode and encode agree: under any bijective code maps, every well-formed instruction, with every operand at every
value the encoding admits, is read back from its word. -/
def Obligations.DecodeOfEncodeIsIdentity : Prop :=
  ∀ (m : CodeMaps) (i : Instr), m.Bijective → i.wellFormed = true → decodeWith m (encodeWith m i) = .ok i

/-- The forward round trips of R72, for each of the three formats, on field values within their widths. -/
def Obligations.FieldsOfEncodersRoundTrip : Prop :=
  (∀ op rd im10 : Nat, op < 8 → rd < 8 → im10 < 1024 →
    (decodeFields (encodeORI op rd im10)).op.toNat = op ∧
    (decodeFields (encodeORI op rd im10)).rd.toNat = rd ∧
    (decodeFields (encodeORI op rd im10)).im10.toNat = im10) ∧
  (∀ (op rd r1 : Nat) (im7 : Int), op < 8 → rd < 8 → r1 < 8 → -64 ≤ im7 → im7 ≤ 63 →
    (decodeFields (encodeORRI op rd r1 im7)).op.toNat = op ∧
    (decodeFields (encodeORRI op rd r1 im7)).rd.toNat = rd ∧
    (decodeFields (encodeORRI op rd r1 im7)).r1.toNat = r1 ∧
    (decodeFields (encodeORRI op rd r1 im7)).im7.toInt = im7) ∧
  (∀ op rd r1 alt r2 : Nat, op < 8 → rd < 8 → r1 < 8 → alt < 8 → r2 < 8 →
    (decodeFields (encodeORRAR op rd r1 alt r2)).op.toNat = op ∧
    (decodeFields (encodeORRAR op rd r1 alt r2)).rd.toNat = rd ∧
    (decodeFields (encodeORRAR op rd r1 alt r2)).r1.toNat = r1 ∧
    (decodeFields (encodeORRAR op rd r1 alt r2)).alt.toNat = alt ∧
    (decodeFields (encodeORRAR op rd r1 alt r2)).r2.toNat = r2)

/-- The reverse direction of R72: encoding what a word decodes to gives the word back for every ORI and ORRI word, and
for a MATH word exactly when its bit 12 is 0. -/
def Obligations.EncodeOfDecodeRestoresWord : Prop :=
  ∀ (w : Word) (i : Instr), decode w = .ok i →
    (i.opcode ≠ .math → encode i = w) ∧ (i.opcode = .math → (encode i = w ↔ w.getLsbD 12 = false))

/-- The encoders' value (R71): each argument is taken modulo its field's width and lands at its field's place. -/
def Obligations.EncodersTakeArgumentsModuloWidth : Prop :=
  (∀ op rd im10 : Int, ((encodeORI op rd im10).toNat : Int) = op % 8 + 8 * (rd % 8) + 64 * (im10 % 1024)) ∧
  (∀ op rd r1 im7 : Int, ((encodeORRI op rd r1 im7).toNat : Int) =
    op % 8 + 8 * (rd % 8) + 64 * (r1 % 8) + 512 * (im7 % 128)) ∧
  (∀ op rd r1 alt r2 : Int, ((encodeORRAR op rd r1 alt r2).toNat : Int) =
    op % 8 + 8 * (rd % 8) + 64 * (r1 % 8) + 512 * (alt % 8) + 8192 * (r2 % 8))

/-- Bit 12 is ignored in a MATH word and significant in every other (R66, which is the spec's decision D3; log 14). -/
def Obligations.OnlyMathWordsIgnoreBit12 : Prop :=
  ∀ w : Word, (decode (w ^^^ 0x1000#16) = decode w ↔ (decodeFields w).op = Config.opcodeValue .math)

/-- The immediates of R67: the ORI immediate shifted by 6 is the word with bits 5:0 cleared, and im7 is bits 15:9 read
as 7-bit two's complement. -/
def Obligations.ImmediatesAssembleFromWord : Prop :=
  ∀ w : Word, upperImmediate (decodeFields w).im10 = w &&& 0xFFC0#16 ∧
    (decodeFields w).im7.toInt = if w.toNat < 32768 then (w.toNat / 512 : Int) else (w.toNat / 512 : Int) - 128

/-- Nine words of the spec decode to what they stand for under the default maps (the spec's decisions D1 and D2; logs
5 and 6): the example words of R100, R101, R110, R111, R120, R121, R130 and R148 (0x0060 is also S7's, 0x0A26 S6's and
0x0225 S9's), and 0xB137 of the decode vectors 2.1, whose bit 12 is set and ignored (the spec's decision D3; log 14). -/
def Obligations.SampleWordsDecode : Prop :=
  decode 0x0060#16 = .ok (.lui 4 1) ∧ decode 0x0061#16 = .ok (.auipc 4 1) ∧ decode 0x014A#16 = .ok (.jalr 1 5 0) ∧
  decode 0x0223#16 = .ok (.beq 4 0 1) ∧ decode 0xFEAC#16 = .ok (.lw 5 2 0xFFFF) ∧
  decode 0x0225#16 = .ok (.sw 4 0 1) ∧ decode 0x0A26#16 = .ok (.addi 4 0 5) ∧
  decode 0xB137#16 = .ok (.add 6 4 5) ∧ decode 0xAF37#16 = .ok (.lt 6 4 5)

/-! ### The instructions, each completing in a next state, with its result and its frame -/

/-- R100. LUI completes from every state; it writes `im10 * 64`, which is the instruction's word with bits 5:0 cleared,
to its destination and nothing else; the end of the step forces register 0, so with rd = 0 nothing is written. -/
def Obligations.LuiWritesUpperImmediate : Prop :=
  DecodesAs (.ori .lui) none (fun d => .lui d.rd d.im10) ∧
  ∀ (s : State) (rd : Reg) (im10 : BitVec 10), ∃ t, exec (.lui rd im10) s = .next t ∧ OnlyRegister rd s t ∧
    (t.reg rd).toNat = im10.toNat * 64 ∧ (∀ w : Word, (decodeFields w).im10 = im10 → t.reg rd = w &&& 0xFFC0#16) ∧
    t.endStep.reg 0#3 = 0#16

/-- R101. AUIPC completes from every state; it writes the advanced pc plus `im10 * 64`, modulo 2^16 (the width is the
spec's decision D5; log 11), to its destination and nothing else. -/
def Obligations.AuipcAddsUpperImmediateToPc : Prop :=
  DecodesAs (.ori .auipc) none (fun d => .auipc d.rd d.im10) ∧
  ∀ (s : State) (rd : Reg) (im10 : BitVec 10), ∃ t, exec (.auipc rd im10) s = .next t ∧ OnlyRegister rd s t ∧
    (t.reg rd).toNat = (s.pc.toNat + im10.toNat * 64) % 65536 ∧ t.endStep.reg 0#3 = 0#16

/-- R110. JALR completes from every state: a destination other than register 0 receives the advanced pc plus 1, then
the pc becomes the base, read after that write, plus im7, modulo 2^15 (the widths are the spec's decisions D4 and D5;
logs 10 and 11). With rd = 0 no register is written. -/
def Obligations.JalrLinksThenJumps : Prop :=
  DecodesAs (.orri .jalr) none (fun d => .jalr d.rd d.r1 d.im7) ∧
  ∀ (s : State) (rd r1 : Reg) (im7 : Word), ∃ t, exec (.jalr rd r1 im7) s = .next t ∧ OnlyPcAnd [rd] s t ∧
    (rd = 0#3 → RegsKeptBut [] s t) ∧ (rd ≠ 0#3 → (t.reg rd).toNat = s.pc.toNat + 1) ∧
    (t.pc.toNat : Int) =
      ((if r1 = rd ∧ rd ≠ 0#3 then (s.pc.toNat : Int) + 1 else ((s.reg r1).toNat : Int)) + im7.toInt) % 32768

/-- R111. BEQ completes from every state: where its two registers are equal the pc becomes the advanced pc plus im7,
modulo 2^15 (the spec's decision D4; log 10), else the pc stays; nothing else changes. -/
def Obligations.BeqBranchesIfEqual : Prop :=
  DecodesAs (.orri .beq) none (fun d => .beq d.rd d.r1 d.im7) ∧
  ∀ (s : State) (rd r1 : Reg) (im7 : Word), ∃ t, exec (.beq rd r1 im7) s = .next t ∧ OnlyPcAnd [] s t ∧
    (s.reg rd = s.reg r1 → (t.pc.toNat : Int) = ((s.pc.toNat : Int) + im7.toInt) % 32768) ∧
    (s.reg rd ≠ s.reg r1 → t.pc = s.pc)

/-- R130. ADDI completes from every state; it writes `x[r1] + im7` modulo 2^16 to its destination and nothing else;
the end of the step forces register 0, so with rd = 0 nothing is written. -/
def Obligations.AddiAddsImmediate : Prop :=
  DecodesAs (.orri .addi) none (fun d => .addi d.rd d.r1 d.im7) ∧
  ∀ (s : State) (rd r1 : Reg) (im7 : Word), ∃ t, exec (.addi rd r1 im7) s = .next t ∧ OnlyRegister rd s t ∧
    ((t.reg rd).toNat : Int) = (((s.reg r1).toNat : Int) + im7.toInt) % 65536 ∧ t.endStep.reg 0#3 = 0#16

/-- R120 where the effective address names a cell: LW completes, writes that cell's word to its destination and
changes nothing else. -/
def Obligations.LwLoadsCell : Prop :=
  DecodesAs (.orri .lw) none (fun d => .lw d.rd d.r1 d.im7) ∧
  ∀ (s : State) (rd r1 : Reg) (im7 : Word) (a : Addr), dataCell Config.dataOor (s.displaced r1 im7) = some a →
    ∃ t, exec (.lw rd r1 im7) s = .next t ∧ OnlyRegister rd s t ∧ t.reg rd = s.mem.read a ∧ t.endStep.reg 0#3 = 0#16

/-- R121 where the effective address names a cell, for memory in canonical form: SW completes, that cell then reads
as the data register, and nothing else changes. -/
def Obligations.SwStoresCell : Prop :=
  DecodesAs (.orri .sw) none (fun d => .sw d.rd d.r1 d.im7) ∧
  ∀ (s : State) (rd r1 : Reg) (im7 : Word) (a : Addr), s.mem.wf →
    dataCell Config.dataOor (s.displaced r1 im7) = some a →
    ∃ t, exec (.sw rd r1 im7) s = .next t ∧ OnlyCell a s t ∧ t.mem.read a = s.reg rd

/-- R45. The effective address is the sum modulo 2^16; below 0x8000 it names the cell of that address, and above it
names none under `DATA_OOR = fault` and the cell of its low 15 bits under `wrap` (the spec's decision D6; log 8). -/
def Obligations.EffectiveAddressNamesCell : Prop :=
  (∀ (s : State) (r1 : Reg) (im7 : Word),
    ((s.displaced r1 im7).toNat : Int) = (((s.reg r1).toNat : Int) + im7.toInt) % 65536) ∧
  ∀ ea : Word,
    (ea.toNat < 32768 → ∀ oor, ∃ a, dataCell oor ea = some a ∧ a.toNat = ea.toNat) ∧
    (32768 ≤ ea.toNat → dataCell .fault ea = none ∧ ∃ a, dataCell .wrap ea = some a ∧ a.toNat = ea.toNat - 32768)

/-- R45, R120, R121, R162 at an effective address of 0x8000 or more (the spec's decision D6; log 8): under the machine's
`DATA_OOR = fault` LW and SW raise the model fault with the address, the instruction's address and its word; under
`wrap` the access reaches the cell of the address's low 15 bits, LW loads it into its destination and changes nothing
else, and SW stores its data register there, changes nothing else and, for memory in canonical form, leaves the cell
reading as that register. -/
def Obligations.OutOfRangeAccessFaults : Prop :=
  ∀ (s : State) (rd r1 : Reg) (im7 : Word), 32768 ≤ (s.displaced r1 im7).toNat →
    exec (.lw rd r1 im7) s = .fault (.dataAddressOutOfRange (s.displaced r1 im7) (s.pc - 1#15) s.ir) ∧
    exec (.sw rd r1 im7) s = .fault (.dataAddressOutOfRange (s.displaced r1 im7) (s.pc - 1#15) s.ir) ∧
    ∃ a : Addr, dataCell .wrap (s.displaced r1 im7) = some a ∧ a.toNat = (s.displaced r1 im7).toNat - 32768 ∧
      (∃ t, s.loadWord .wrap rd r1 im7 = .next t ∧ OnlyRegister rd s t ∧ t.reg rd = s.mem.read a ∧
        t.endStep.reg 0#3 = 0#16) ∧
      ∃ t, s.storeWord .wrap rd r1 im7 = .next t ∧ OnlyCell a s t ∧ (s.mem.wf → t.mem.read a = s.reg rd)

/-- R141. That bit 12 of the word is ignored is the spec's decision D3 (log 14). -/
def Obligations.AddAddsModulo : Prop := MathResult .add (fun a b => (a + b) % 65536)

/-- R142. That bit 12 of the word is ignored is the spec's decision D3 (log 14). -/
def Obligations.SubSubtractsModulo : Prop := MathResult .sub (fun a b => (a + (65536 - b)) % 65536)

/-- R143. The value 0 for amounts of 16 or more is the spec's decision D11 (log 12), and that bit 12 of the word is
ignored its decision D3 (log 14). -/
def Obligations.SllShiftsLeft : Prop := MathResult .sll (fun a b => if b < 16 then a * 2 ^ b % 65536 else 0)

/-- R144. The value 0 for amounts of 16 or more is the spec's decision D11 (log 12), and that bit 12 of the word is
ignored its decision D3 (log 14). -/
def Obligations.SrlShiftsRight : Prop := MathResult .srl (fun a b => if b < 16 then a / 2 ^ b else 0)

/-- R145: the complement of `a & b` over 16 bits. That bit 12 of the word is ignored is the spec's decision D3
(log 14). -/
def Obligations.NandComplementsAnd : Prop := MathResult .nand (fun a b => 65535 - (a &&& b))

/-- R146. That bit 12 of the word is ignored is the spec's decision D3 (log 14). -/
def Obligations.AndIsBitwise : Prop := MathResult .and (fun a b => a &&& b)

/-- R147. That bit 12 of the word is ignored is the spec's decision D3 (log 14). -/
def Obligations.OrIsBitwise : Prop := MathResult .or (fun a b => a ||| b)

/-- R148. That bit 12 of the word is ignored is the spec's decision D3 (log 14). -/
def Obligations.LtComparesUnsigned : Prop := MathResult .lt (fun a b => if a < b then 1 else 0)

/-- R24, R25: what an instruction does depends on no register but its sources. From two states that agree on
everything but the registers, and on the instruction's sources, it completes in both or in neither, and the next states
agree on the pc, on memory, on its destination and on every register the two states agreed on. -/
def Obligations.InstructionReadsOnlySources : Prop :=
  ∀ (i : Instr) (s u t : State), (∀ q ∈ i.sources, u.reg q = s.reg q) → u.pc = s.pc → u.ir = s.ir → u.mem = s.mem →
    u.out = s.out → u.fault = s.fault → exec i s = .next t →
    ∃ v, exec i u = .next v ∧ v.pc = t.pc ∧ v.ir = t.ir ∧ v.mem = t.mem ∧ v.out = t.out ∧ v.fault = t.fault ∧
      ∀ q, (u.reg q = s.reg q ∨ (i.destination = some q ∧ q ≠ 0#3)) → v.reg q = t.reg q

/-! ### The step -/

/-- R205: one step, in terms of the instruction the word at pc decodes to. A faulted machine has no next step (it
answers its fault again, the model's reading: log 15), a halted one stays as it is, and a running one fetches,
advances, executes, forces register 0 and serves the port. -/
def Obligations.StepRunsDecodedInstruction : Prop :=
  ∀ s : State,
    (∀ r, s.fault = some r → step s = .fault r) ∧
    (s.fault = none → s.pc = 0#15 → step s = .next s) ∧
    (s.fault = none → s.pc ≠ 0#15 → ∀ i, decode (s.mem.read s.pc) = .ok i → i.wellFormed = true →
      (∀ u, exec i { s with ir := s.mem.read s.pc, pc := s.pc + 1#15 } = .next u →
        (u.mem.read 0x0001#15 ≠ 0#16 → step s = .next { u.setReg 0#3 0#16 with
          out := u.out ++ [(u.mem.read 0x0001#15).extractLsb' 0 8], mem := u.mem.write 0x0001#15 0#16 }) ∧
        (u.mem.read 0x0001#15 = 0#16 → step s = .next (u.setReg 0#3 0#16))) ∧
      (∀ r, exec i { s with ir := s.mem.read s.pc, pc := s.pc + 1#15 } = .fault r → step s = .fault r) ∧
      (∀ r, exec i { s with ir := s.mem.read s.pc, pc := s.pc + 1#15 } = .refused r → step s = .refused r))

/-- R206: a step of a halted machine is a no-op. -/
def Obligations.HaltedStepIsNoOp : Prop :=
  ∀ s : State, s.status = .halted → step s = .next s ∧ s.singleStep = s

/-- R73 for maps that leave a value unassigned: the word at pc then runs as a step whose phase 3 does nothing, all
other phases happening: the fetch, the advance (modulo 2^15: the spec's decision D4; log 10), the force of register 0
and the port phase, which emits and clears cell 0x0001 (that it reads 0 afterwards is said for memory in canonical
form). For an unassigned alt value this is the model's reading (log 7). -/
def Obligations.UnassignedWordIsNoOp : Prop :=
  ∀ (m : CodeMaps) (s : State) (e : DecodeReject), s.status = .running →
    decodeWith m (s.mem.read s.pc) = .error e → ∃ t, cycle m s = .next t ∧ t.pc = s.pc + 1#15 ∧
      t.ir = s.mem.read s.pc ∧ (∀ q, t.reg q = if q = 0#3 then 0#16 else s.reg q) ∧ t.fault = none ∧
      CellsKeptBut [0x0001#15] s t ∧ (s.mem.wf → t.mem.read 0x0001#15 = 0#16) ∧
      t.out = if s.mem.read 0x0001#15 = 0#16 then s.out else s.out ++ [(s.mem.read 0x0001#15).extractLsb' 0 8]

/-- Every step of a running machine completes, except LW and SW at an effective address of 0x8000 or more, which
stop with the model fault that names the address, the instruction's address and its word (R160, R162; the fault is the
spec's decision D6). No step is ever refused. -/
def Obligations.RunningStepCompletesOrFaults : Prop :=
  ∀ s : State, s.status = .running →
    (∃ t, step s = .next t) ∨
    ∃ rd r1 im7, (decode (s.mem.read s.pc) = .ok (.lw rd r1 im7) ∨ decode (s.mem.read s.pc) = .ok (.sw rd r1 im7)) ∧
      32768 ≤ (s.displaced r1 im7).toNat ∧
      step s = .fault (.dataAddressOutOfRange (s.displaced r1 im7) s.pc (s.mem.read s.pc))

/-- What a fault leaves (R28, R162; the spec's decision D15, log 15): the machine is faulted, the record is the
reason, every other piece of state is as before the step, and no further step changes anything. -/
def Obligations.FaultKeepsStateAndStops : Prop :=
  ∀ (s : State) (r : Fault), s.fault = none → step s = .fault r →
    s.singleStep = { s with fault := some r } ∧ s.singleStep.status = .faulted ∧
    ∀ n, State.singleStep^[n] s.singleStep = s.singleStep

/-- R22: after every step of a running machine register 0 is 0, whatever the instruction computed for it. -/
def Obligations.StepForcesRegisterZero : Prop :=
  (∀ u : State, u.forceZero.reg 0#3 = 0#16 ∧ OnlyRegister 0#3 u u.forceZero) ∧
  ∀ s t : State, s.status = .running → step s = .next t → t.reg 0#3 = 0#16

/-- R27: no instruction writes the instruction register, and after a step it holds the word that step fetched. -/
def Obligations.InstructionRegisterHoldsFetchedWord : Prop :=
  (∀ (i : Instr) (s t : State), exec i s = .next t → t.ir = s.ir) ∧
  (∀ s t : State, s.status = .running → step s = .next t → t.ir = s.mem.read s.pc) ∧
  ∀ s t : State, s.status = .halted → step s = .next t → t.ir = s.ir

/-- R24 over a whole step: a register other than 0 changes only where the instruction names it as its destination; BEQ
and SW name none. -/
def Obligations.StepWritesOnlyDestination : Prop :=
  ∀ (s t : State) (i : Instr) (q : Reg), s.status = .running → decode (s.mem.read s.pc) = .ok i → step s = .next t →
    q ≠ 0#3 → i.destination ≠ some q → t.reg q = s.reg q

/-- R49 and R47 over a whole step: a cell other than the output port's changes only where the instruction is SW and
the cell is the one its effective address names. -/
def Obligations.StepWritesOnlyStoredCell : Prop :=
  ∀ (s t : State) (i : Instr) (a : Addr), s.status = .running → decode (s.mem.read s.pc) = .ok i → step s = .next t →
    a ≠ 0x0001#15 → (∀ rd r1 im7, i = .sw rd r1 im7 → dataCell Config.dataOor (s.displaced r1 im7) ≠ some a) →
    t.mem.read a = s.mem.read a

/-- R26: every instruction but JALR and a taken BEQ leaves the pc at its address plus 1, modulo 2^15 (the spec's
decision D4; log 10). -/
def Obligations.PcAdvancesWithoutJump : Prop :=
  ∀ (s t : State) (i : Instr), s.status = .running → decode (s.mem.read s.pc) = .ok i → step s = .next t →
    (∀ rd r1 im7, i ≠ .jalr rd r1 im7) → (∀ rd r1 im7, i = .beq rd r1 im7 → s.reg rd ≠ s.reg r1) →
    t.pc.toNat = (s.pc.toNat + 1) % 32768

/-- R170, for memory in canonical form: the port phase of every step that executes tests all 16 bits of cell 0x0001 as
phase 3 left it, and where it is not 0 appends its low byte to the output stream and clears it. For any memory a halted
machine emits nothing; that a faulted machine and a faulting step emit nothing and keep memory rests on the spec's
decision D15 (log 15). -/
def Obligations.PortPhaseEmitsLowByte : Prop :=
  (∀ (s u : State) (i : Instr), s.status = .running → s.mem.wf → decode (s.mem.read s.pc) = .ok i →
    exec i s.beginStep = .next u → ∃ t, step s = .next t ∧ t.pc = u.pc ∧ CellsKeptBut [0x0001#15] u t ∧
      (u.mem.read 0x0001#15 ≠ 0#16 →
        (∃ b : Byte, t.out = s.out ++ [b] ∧ b.toNat = (u.mem.read 0x0001#15).toNat % 256) ∧
        t.mem.read 0x0001#15 = 0#16) ∧
      (u.mem.read 0x0001#15 = 0#16 → t.out = s.out ∧ t.mem.read 0x0001#15 = 0#16)) ∧
  (∀ s : State, s.status ≠ .running → s.singleStep.out = s.out ∧ s.singleStep.mem = s.mem) ∧
  ∀ (s : State) (r : Fault), step s = .fault r → s.singleStep.out = s.out ∧ s.singleStep.mem = s.mem

/-- R29 and R47: a step leaves the output stream alone or appends one entry to it, and after a step of a running
machine the output port's cell is 0. -/
def Obligations.StepLeavesPortCellClear : Prop :=
  ∀ s t : State, s.mem.wf → s.status = .running → step s = .next t →
    t.mem.read 0x0001#15 = 0#16 ∧ (t.out = s.out ∨ ∃ b, t.out = s.out ++ [b])

/-- R207: phases 4 and 5 commute. -/
def Obligations.ForceAndPortPhasesCommute : Prop :=
  ∀ s : State, s.forceZero.portPhase = s.portPhase.forceZero

/-- R74: from a state between steps whose port cell is 0, a step whose instruction writes only register 0, or is a BEQ
of offset 0, changes nothing but the pc, by 1, and the instruction register. -/
def Obligations.ZeroDestinationStepHasNoEffect : Prop :=
  ∀ (s t : State) (i : Instr), Inv s → s.status = .running → s.mem.read 0x0001#15 = 0#16 →
    decode (s.mem.read s.pc) = .ok i → step s = .next t →
    ((i.destination = some 0#3 ∧ ∀ rd r1 im7, i ≠ .jalr rd r1 im7) ∨ ∃ rd r1, i = .beq rd r1 0#16) →
    t = { s with pc := s.pc + 1#15, ir := s.mem.read s.pc }

/-- R51 and R221: where a step stores to a cell other than the output port's and the next step fetches that cell, the
next step's instruction register holds the stored word. -/
def Obligations.NextFetchSeesStore : Prop :=
  ∀ (s t v : State) (rd r1 : Reg) (im7 : Word) (a : Addr), Inv s → s.status = .running →
    decode (s.mem.read s.pc) = .ok (.sw rd r1 im7) → dataCell Config.dataOor (s.displaced r1 im7) = some a →
    a ≠ 0x0001#15 → step s = .next t → t.pc = a → t.status = .running → step t = .next v → v.ir = s.reg rd

/-! ### Reset, the invariant, loading and run control -/

/-- R33 for every value of the reset draws; the pc's value rests on the spec's decision D10 (log 9). -/
def Obligations.ResetLeavesStatedValues : Prop :=
  ∀ d : Draws,
    (State.resetWith d).reg 0#3 = 0#16 ∧
    (∀ k : Fin 7, (State.resetWith d).reg (BitVec.ofNat 3 (k.val + 1)) = d.initRegs[k]) ∧
    (State.resetWith d).pc = 0x0010#15 ∧ (State.resetWith d).ir = d.initIR ∧ (State.resetWith d).mem = d.initMem ∧
    (State.resetWith d).out = [] ∧ (State.resetWith d).fault = none ∧ (State.resetWith d).status = .running

/-- The model's own choice for the draws of `State.reset` (logs 1, 2 and 3): zeros. -/
def Obligations.ResetNamesZeroDraws : Prop :=
  (∀ r, State.reset.reg r = 0#16) ∧ (∀ a, State.reset.mem.read a = 0#16) ∧ State.reset.ir = 0#16

/-- The invariant holds at reset, for every draw of memory in canonical form, and at `State.reset`. -/
def Obligations.InvHoldsAtReset : Prop :=
  (∀ d : Draws, d.initMem.wf → Inv (State.resetWith d)) ∧ Inv State.reset

/-- The invariant of a state between steps, register 0 reading 0 and memory in canonical form, is kept by every step,
from every state that has it. -/
def Obligations.StepKeepsInv : Prop :=
  ∀ s t : State, Inv s → step s = .next t → Inv t

/-- The invariant holds wherever a run ends, after a load before it, and what was emitted before stays emitted. -/
def Obligations.RunKeepsInvAndOutput : Prop :=
  ∀ (n : Nat) (s t : State) (ws : List Word), Inv s → State.runToCompletion n (s.load ws).2 = some t →
    Inv t ∧ s.out <+: t.out

/-- R211: a run ends where stepping first reaches a status other than running, and more fuel changes nothing. -/
def Obligations.RunEndsAtFirstStop : Prop :=
  ∀ (n : Nat) (s t : State), State.runToCompletion n s = some t →
    (∃ j ≤ n, t = State.singleStep^[j] s ∧ t.status ≠ .running ∧
      ∀ i < j, (State.singleStep^[i] s).status = .running) ∧
    ∀ k, State.runToCompletion (n + k) s = some t

/-- R213: a run need not end. A machine at a BEQ of one register with itself and offset -1, outside the output port's
cell, never leaves it. -/
def Obligations.SelfBranchNeverEnds : Prop :=
  ∀ (s : State) (r : Reg), s.status = .running → s.pc ≠ 0x0001#15 →
    decode (s.mem.read s.pc) = .ok (.beq r r 0xFFFF#16) → ∀ n, State.runToCompletion n s = none

/-- R202: a load that fits puts word i at 0x0010 + i and changes nothing else; one that does not fit before the end of
the array reports failure and changes nothing. -/
def Obligations.LoadPlacesWordsOrFails : Prop :=
  ∀ (s : State) (ws : List Word), s.mem.wf →
    (ws.length ≤ 32752 → ∃ t, s.load ws = (true, t) ∧
      (∀ (i : Nat) (h : i < ws.length), t.mem.read (BitVec.ofNat 15 (0x0010 + i)) = ws[i]) ∧
      (∀ a : Addr, a.toNat < 0x0010 ∨ 0x0010 + ws.length ≤ a.toNat → t.mem.read a = s.mem.read a) ∧
      t.mem.wf ∧ RegsKeptBut [] s t ∧ t.pc = s.pc ∧ RestKept s t) ∧
    (32752 < ws.length → s.load ws = (false, s))

/-- R86 and R87: under any maps `nop` emits the one word of `addi zero, zero, 0` and `halt` that of
`jalr zero, zero, 0`. That these are 0x0006 and 0x0002, and that 0x0002 is `halt` to the machine, rests on the default
opcode map, the spec's decision D1 (log 5); executing it makes the pc 0, so the machine is halted, and writes no
register. -/
def Obligations.NopAndHaltEmitTheirWords : Prop :=
  (∀ m : CodeMaps, assembleWith m [.nop] = .ok [encodeWith m (.addi 0 0 0)] ∧
    assembleWith m [.halt] = .ok [encodeWith m (.jalr 0 0 0)]) ∧
  assemble [.nop] = .ok [0x0006#16] ∧ assemble [.halt] = .ok [0x0002#16] ∧
  ∀ s : State, Inv s → s.status = .running → s.mem.read s.pc = 0x0002#16 →
    ∃ t, step s = .next t ∧ t.pc = 0#15 ∧ t.status = .halted ∧ RegsKeptBut [] s t

/-- Where the host stores an instruction for the next step (the model's interface; log 17): the machine then runs and
its pc names a cell that holds the word. -/
def Obligations.PlacedWordIsFetchedNext : Prop :=
  ∀ (s : State) (nbits w : Nat), s.mem.wf →
    (s.withFetchWord nbits w).status = .running ∧
    (s.withFetchWord nbits w).mem.read (s.withFetchWord nbits w).pc = tableWord nbits w ∧
    (s.status = .running → (s.withFetchWord nbits w).pc = s.pc)

/-! ### Memory's representation (the model's own: log 4) -/

/-- Memories in canonical form that read alike are the same data. -/
def Obligations.CanonicalMemoryIsDetermined : Prop :=
  ∀ m n : Memory, m.wf → n.wf → (∀ a, m.read a = n.read a) → m = n

/-- Every contents of the 32768 cells, so every draw `initMem` of R33, is the reading of a memory in canonical form. -/
def Obligations.EveryContentsHasMemory : Prop :=
  ∀ f : Addr → Word, ∃ m : Memory, m.wf ∧ ∀ a, m.read a = f a

/-! ### The toolchain's spelling -/

/-- R84, R85 and R88: an operand within its bounds lands in the field of its name, and one outside is an error; `.word`
emits its literal's one raw word, the two's-complement pattern of a negative one, and `.word` and `li` share the bounds
of imm16 (the lower bounds and the range of imm16 are the spec's decision D19; log 21). What `li` emits within the
bounds is in `LoadDirectivesLeaveValue`. -/
def Obligations.OperandsLandInFields : Prop :=
  ∀ (m : CodeMaps) (t : LabelTable), m.Bijective →
    (∀ (op : OriOp) (rd : Reg) (v : Int),
      (0 ≤ v ∧ v ≤ 1023 → ∃ w f, Line.words m t (.ori op rd v) = .ok [w] ∧ decodeWith m w = .ok (.ofOri op rd f) ∧
        (f.toNat : Int) = v) ∧
      (v < 0 ∨ 1023 < v → Line.words m t (.ori op rd v) = .error .literalTooLarge)) ∧
    (∀ (op : OrriOp) (rd r1 : Reg) (v : Int),
      (-64 ≤ v ∧ v ≤ 63 → ∃ w f, Line.words m t (.orri op rd r1 v) = .ok [w] ∧
        decodeWith m w = .ok (.ofOrri op rd r1 f) ∧ f.toInt = v) ∧
      (v < -64 ∨ 63 < v → Line.words m t (.orri op rd r1 v) = .error .literalTooLarge)) ∧
    (∀ (alt : Alt) (rd r1 r2 : Reg), ∃ w, Line.words m t (.math alt rd r1 r2) = .ok [w] ∧
      decodeWith m w = .ok (.ofAlt alt rd r1 r2)) ∧
    ∀ (rd : Reg) (v : Int),
      (-32768 ≤ v ∧ v ≤ 65535 → (∃ w : Word, Line.words m t (.word v) = .ok [w] ∧ (w.toNat : Int) = v % 65536) ∧
        ∃ ws, Line.words m t (.li rd v) = .ok ws) ∧
      (v < -32768 ∨ 65535 < v → Line.words m t (.word v) = .error .literalTooLarge ∧
        Line.words m t (.li rd v) = .error .literalTooLarge)

/-- R89 and R90 (the expansion is the spec's decision D20, log 20, and the bounds its decision D19, log 21). Under any
bijective maps a `li` within its bounds emits words that decode to the instructions of its literal's 16-bit pattern, and a
`la` of a label words that decode to those of the label's address. There is one instruction exactly where the value is
below 64, each is well-formed, and run from a state whose register 0 is 0 they leave the value in their destination and
change nothing else. -/
def Obligations.LoadDirectivesLeaveValue : Prop :=
  (∀ (m : CodeMaps) (t : LabelTable) (rd : Reg), m.Bijective →
    (∀ v : Int, -32768 ≤ v → v ≤ 65535 → ∃ (p : Word) (ws : List Word), (p.toNat : Int) = v % 65536 ∧
      Line.words m t (.li rd v) = .ok ws ∧ ws.map (decodeWith m) = (loadLiteral rd p).map .ok) ∧
    ∀ (name : String) (a : Nat), t.address? name = some a → ∃ ws : List Word,
      Line.words m t (.la rd name) = .ok ws ∧ ws.map (decodeWith m) = (loadLabel rd a).map .ok) ∧
  ∀ (s : State) (rd : Reg), rd ≠ 0#3 → s.reg 0#3 = 0#16 →
    (∀ v : Word, (∀ i ∈ loadLiteral rd v, i.wellFormed = true) ∧
      (loadLiteral rd v).length = (if v.toNat < 64 then 1 else 2) ∧
      ∃ t, execSeq (loadLiteral rd v) s = .next t ∧ OnlyRegister rd s t ∧ t.reg rd = v) ∧
    ∀ a : Nat, a < 65536 → (∀ i ∈ loadLabel rd a, i.wellFormed = true) ∧
      (loadLabel rd a).length = (if a < 64 then 1 else 2) ∧
      ∃ t, execSeq (loadLabel rd a) s = .next t ∧ OnlyRegister rd s t ∧ (t.reg rd).toNat = a

/-- R83, R91 and R92: an assembled image is the lines' words in order, each line emits the number of words the layout
gave it, one more layout pass moves no label, and each label names the address of the word after those before it. -/
def Obligations.LabelsNameTheirWords : Prop :=
  ∀ (m : CodeMaps) (ls : List Line) (ws : List Word), assembleWith m ls = .ok ws →
    ∃ (t : LabelTable) (chunks : List (List Word)), layout t 0x0010 ls = t ∧ ws = chunks.flatten ∧
      List.Forall₂ (fun l c => Line.words m t l = .ok c ∧ c.length = l.size t) ls chunks ∧
      ∀ pre name post, ls = pre ++ .label name :: post →
        t.address? name = some (0x0010 + (pre.map (Line.size t)).sum)

/-- R91: the sizing loop settles for every program (that it begins at the placeholder address is the model's choice;
log 19). -/
def Obligations.SizingLoopSettles : Prop :=
  ∀ ls : List Line, ∃ t, labelAddresses ls = some t

/-- R83: a label defined twice is fatal, with both positions reported, the original first; so is a label that is
referenced and never defined. That a duplicate label is the error reported whatever other errors the lines hold, and
that positions are indices of lines, is the model's choice (log 23). -/
def Obligations.BadLabelsAreFatal : Prop :=
  ∀ (m : CodeMaps) (ls : List Line),
    (∀ pre mid post name, ls = pre ++ .label name :: (mid ++ .label name :: post) →
      ∃ n i j, assembleWith m ls = .error (.duplicateLabel n i j) ∧ i < j ∧
        ls[i]? = some (.label n) ∧ ls[j]? = some (.label n)) ∧
    (∀ rd name, .la rd name ∈ ls → .label name ∉ ls → ∃ e, assembleWith m ls = .error e)

/-- R82: repeated minus signs toggle the sign of a literal. -/
def Obligations.MinusSignsToggle : Prop :=
  ∀ (k : Nat) (radix : Radix) (ds : List Nat) (ts : List Token),
    takeNumber false (List.replicate k .minus ++ .number radix ds :: ts) =
      .ok ((-1) ^ k * (literalValue radix ds : Int), ts)
end

