-- ==== Sys2Proof/Laws/Decode.lean ====
section
/-! SUPPORT. Laws of the bit fields: what each encoder argument puts where. -/

namespace Sys2Proof.Laws

/-- A bit of a placed field. -/
theorem placeField_getLsbD (width lo : Nat) (v : Int) (i : Nat) :
    (placeField width lo v).getLsbD i =
      (decide (i < 16) && (decide (lo ≤ i) && (BitVec.ofInt width v).getLsbD (i - lo))) := by
  simp only [placeField, BitVec.getLsbD_shiftLeft, BitVec.getLsbD_setWidth]
  by_cases h1 : i < 16
  · by_cases h2 : lo ≤ i
    · have h3 : i - lo < 16 := by omega
      have h4 : ¬ i < lo := by omega
      simp [h1, h2, h3, h4]
    · have h4 : i < lo := by omega
      simp [h1, h2, h4]
  · simp [h1]

/-- A field masked to its own width is the field. -/
@[simp] theorem ofInt_toNat {n : Nat} (v : BitVec n) : BitVec.ofInt n (v.toNat : Int) = v := by
  rw [BitVec.ofInt_natCast, BitVec.ofNat_toNat, BitVec.setWidth_eq]

/-- Truncating a word read as two's complement keeps its low bits. -/
theorem ofInt_toInt_low {n : Nat} (hn : n ≤ 16) (w : Word) : BitVec.ofInt n w.toInt = w.setWidth n :=
  BitVec.signExtend_eq_setWidth_of_le w hn

/-- The low three bits of an ORI word are its opcode. -/
theorem encodeORI_low (op rd im10 : Int) : encodeORI op rd im10 &&& 0x0007#16 = placeField 3 0 op := by
  apply BitVec.eq_of_getLsbD_eq
  intro i hi
  simp only [encodeORI, BitVec.getLsbD_and, BitVec.getLsbD_or, placeField_getLsbD]
  interval_cases i <;> simp

/-- The low three bits of an ORRI word are its opcode. -/
theorem encodeORRI_low (op rd r1 im7 : Int) : encodeORRI op rd r1 im7 &&& 0x0007#16 = placeField 3 0 op := by
  apply BitVec.eq_of_getLsbD_eq
  intro i hi
  simp only [encodeORRI, BitVec.getLsbD_and, BitVec.getLsbD_or, placeField_getLsbD]
  interval_cases i <;> simp

/-- Bits 11:9 and 2:0 of an ORRAR word are its operation and its opcode. -/
theorem encodeORRAR_low (op rd r1 alt r2 : Int) :
    encodeORRAR op rd r1 alt r2 &&& 0x0E07#16 = placeField 3 0 op ||| placeField 3 9 alt := by
  apply BitVec.eq_of_getLsbD_eq
  intro i hi
  simp only [encodeORRAR, BitVec.getLsbD_and, BitVec.getLsbD_or, placeField_getLsbD]
  interval_cases i <;> simp

/-- An injective opcode map is read back. -/
theorem opcodeOf?_opcode {m : CodeMaps} (h : Function.Injective m.opcode) (o : Opcode) :
    m.opcodeOf? (m.opcode o) = some o := by
  have key : ∀ l : List Opcode, o ∈ l → l.find? (fun p => m.opcode p == m.opcode o) = some o := by
    intro l
    induction l with
    | nil => intro ho; cases ho
    | cons p l ih =>
      intro ho
      by_cases hp : m.opcode p = m.opcode o
      · rw [List.find?_cons_of_pos (by simp [hp]), h hp]
      · rw [List.find?_cons_of_neg (by simp [hp])]
        exact ih ((List.mem_cons.mp ho).resolve_left (fun e => hp (by rw [e])))
  exact key _ (by rcases o with (_ | _) | (_ | _ | _ | _ | _) | _ <;> decide)

/-- An injective operation map is read back. -/
theorem altOf?_alt {m : CodeMaps} (h : Function.Injective m.alt) (a : Alt) : m.altOf? (m.alt a) = some a := by
  have key : ∀ l : List Alt, a ∈ l → l.find? (fun p => m.alt p == m.alt a) = some a := by
    intro l
    induction l with
    | nil => intro ha; cases ha
    | cons p l ih =>
      intro ha
      by_cases hp : m.alt p = m.alt a
      · rw [List.find?_cons_of_pos (by simp [hp]), h hp]
      · rw [List.find?_cons_of_neg (by simp [hp])]
        exact ih ((List.mem_cons.mp ha).resolve_left (fun e => hp (by rw [e])))
  exact key _ (by cases a <;> decide)

/-- The default maps are what R68 and R69 require. -/
theorem codeMaps_bijective : Config.codeMaps.Bijective := by
  refine ⟨⟨fun o p => ?_, ?_⟩, ⟨fun a b => ?_, ?_⟩⟩
  · rcases o with (_ | _) | (_ | _ | _ | _ | _) | _ <;> rcases p with (_ | _) | (_ | _ | _ | _ | _) | _ <;> decide
  · have h : ∀ v : BitVec 3, v ∈ Opcode.all.map Config.opcodeValue := by decide
    exact fun v => (List.mem_map.mp (h v)).imp fun _ e => e.2
  · cases a <;> cases b <;> decide
  · have h : ∀ v : BitVec 3, v ∈ Alt.all.map Config.altValue := by decide
    exact fun v => (List.mem_map.mp (h v)).imp fun _ e => e.2

end Sys2Proof.Laws
end

