-- ==== Sys2Proof/Laws/Memory.lean ====
section
/-! SUPPORT. Laws of the memory operations: a read after a write, and that every operation keeps the canonical form. -/

namespace Sys2Proof.Laws

open Sys2Proof.Machine

/-- Storage reads back the half stored at the same index. -/
theorem byteAt_setByte_same (m : Memory) (k : Nat) (v : Byte) (h : m.Pairwise (fun c d => c.1 < d.1)) :
    (m.setByte k v).byteAt k = v := by
  induction m with
  | nil => by_cases hv : v = unlistedByte <;> simp [Memory.setByte, Memory.byteAt, hv]
  | cons c m ih =>
    obtain ⟨k', v'⟩ := c
    have hm := (List.pairwise_cons.mp h).2
    have hlt := (List.pairwise_cons.mp h).1
    have absent : ∀ n : Memory, (∀ c ∈ n, k < c.1) → n.byteAt k = unlistedByte := by
      intro n
      induction n with
      | nil => intro _; rfl
      | cons c n ihn =>
        intro hn
        have := hn c (by simp)
        simp only [Memory.byteAt]
        rw [if_neg (by omega)]
        exact ihn (fun c hc => hn c (by simp [hc]))
    simp only [Memory.setByte]
    by_cases h1 : k < k'
    · have far : Memory.byteAt ((k', v') :: m) k = unlistedByte :=
        absent _ (by
          intro c hc
          rcases List.mem_cons.mp hc with rfl | hc
          · exact h1
          · exact Nat.lt_trans h1 (hlt c hc))
      by_cases hv : v = unlistedByte
      · simp only [h1, hv, if_true]; exact far
      · simp [h1, hv, Memory.byteAt]
    · by_cases h2 : k = k'
      · subst h2
        by_cases hv : v = unlistedByte
        · simp only [h1, hv, if_true, if_false]; exact absent m hlt
        · simp [hv, Memory.byteAt]
      · simp only [h1, h2, if_false, Memory.byteAt]
        rw [if_neg (by omega)]
        exact ih hm

/-- Storing at one index leaves every other index alone. -/
theorem byteAt_setByte_other (m : Memory) (k j : Nat) (v : Byte) (hj : j ≠ k) :
    (m.setByte k v).byteAt j = m.byteAt j := by
  induction m with
  | nil =>
    by_cases hv : v = unlistedByte
    · simp [Memory.setByte, hv]
    · simp [Memory.setByte, Memory.byteAt, hv, Ne.symm hj]
  | cons c m ih =>
    obtain ⟨k', v'⟩ := c
    simp only [Memory.setByte]
    by_cases h1 : k < k'
    · by_cases hv : v = unlistedByte <;> simp [h1, hv, Memory.byteAt, Ne.symm hj]
    · by_cases h2 : k = k'
      · subst h2
        by_cases hv : v = unlistedByte <;> simp [hv, Memory.byteAt, Ne.symm hj]
      · simp only [h1, h2, if_false, Memory.byteAt, ih]

/-- An entry of a store's result is the stored one or was there before. -/
theorem mem_setByte {m : Memory} {k : Nat} {v : Byte} {c : Host.Cell} (h : c ∈ m.setByte k v) :
    c ∈ m ∨ (c = (k, v) ∧ v ≠ unlistedByte) := by
  induction m with
  | nil => by_cases hv : v = unlistedByte <;> simp_all [Memory.setByte]
  | cons d m ih =>
    obtain ⟨k', v'⟩ := d
    simp only [Memory.setByte] at h
    split_ifs at h <;> simp_all [List.mem_cons] <;> tauto

/-- Storing half a cell inside the storage keeps the canonical form. -/
theorem setByte_wf {m : Memory} (h : m.wf) {k : Nat} (hk : k < storageSize) (v : Byte) : (m.setByte k v).wf := by
  refine ⟨?_, fun c hc => ?_⟩
  · have hp := h.1
    clear h
    induction m with
    | nil => by_cases hv : v = unlistedByte <;> simp [Memory.setByte, hv]
    | cons d m ih =>
      obtain ⟨k', v'⟩ := d
      have hlt := (List.pairwise_cons.mp hp).1
      have hm := (List.pairwise_cons.mp hp).2
      simp only [Memory.setByte]
      split_ifs with h1 hv h2 hv
      · exact hp
      · refine List.pairwise_cons.mpr ⟨fun c hc => ?_, hp⟩
        rcases List.mem_cons.mp hc with rfl | hc
        · exact h1
        · exact Nat.lt_trans h1 (hlt c hc)
      · exact hm
      · exact List.pairwise_cons.mpr ⟨fun c hc => h2 ▸ hlt c hc, hm⟩
      · refine List.pairwise_cons.mpr ⟨fun c hc => ?_, ih hm⟩
        rcases mem_setByte hc with hc | ⟨rfl, _⟩
        · exact hlt c hc
        · show k' < k; omega
  · rcases mem_setByte hc with hc | ⟨rfl, hv⟩
    · exact h.2 c hc
    · exact ⟨hk, hv⟩

theorem lowIndex_lt (a : Addr) : lowIndex a < storageSize := by
  have := a.isLt; simp only [lowIndex, storageSize]; omega

theorem highIndex_lt (a : Addr) : highIndex a < storageSize := by
  have := a.isLt; simp only [highIndex, storageSize]; omega

/-- A write of one cell keeps the canonical form. -/
theorem write_wf {m : Memory} (h : m.wf) (a : Addr) (v : Word) : (m.write a v).wf :=
  setByte_wf (setByte_wf h (lowIndex_lt a) _) (highIndex_lt a) _

/-- The loader's writes keep the canonical form. -/
theorem writeWords_wf {m : Memory} (h : m.wf) (a : Addr) (ws : List Word) : (m.writeWords a ws).wf := by
  induction ws generalizing m a with
  | nil => exact h
  | cons w ws ih => exact ih (write_wf h a w) (a + 1)

/-- Memory with nothing listed has the canonical form. -/
theorem nil_wf : Memory.wf [] := by decide

/-- The low half of two halves put together. -/
theorem append_low (lo hi : Byte) : (hi ++ lo).extractLsb' 0 8 = lo := by
  apply BitVec.eq_of_getLsbD_eq
  intro i hi
  rw [BitVec.getLsbD_extractLsb', BitVec.getLsbD_append]
  simp [hi]

/-- The high half of two halves put together. -/
theorem append_high (lo hi : Byte) : (hi ++ lo).extractLsb' 8 8 = hi := by
  apply BitVec.eq_of_getLsbD_eq
  intro i hi
  rw [BitVec.getLsbD_extractLsb', BitVec.getLsbD_append]
  simp [hi]

/-- The two storage entries of a cell are the halves of what it reads as. -/
theorem byteAt_of_read (m : Memory) (a : Addr) :
    m.byteAt (lowIndex a) = (m.read a).extractLsb' 0 8 ∧ m.byteAt (highIndex a) = (m.read a).extractLsb' 8 8 :=
  ⟨(append_low _ _).symm, (append_high _ _).symm⟩

/-- A cell reads back what was written to it. -/
theorem read_write_same {m : Memory} (h : m.wf) (a : Addr) (v : Word) : (m.write a v).read a = v := by
  have hl := (setByte_wf h (lowIndex_lt a) (v.extractLsb' 0 8)).1
  have hne : lowIndex a ≠ highIndex a := by simp only [lowIndex, highIndex]; omega
  simp only [Memory.read, Memory.write, byteAt_setByte_same _ _ _ hl, byteAt_setByte_other _ _ _ _ hne,
    byteAt_setByte_same _ _ _ h.1]
  ext i hi
  simp only [BitVec.getElem_append, BitVec.getElem_extractLsb']
  split
  · simp [← BitVec.getLsbD_eq_getElem]
  · have : 8 + (i - 8) = i := by omega
    rw [this]
    simp [← BitVec.getLsbD_eq_getElem]

/-- A write of one cell leaves every other cell alone. -/
theorem read_write_other (m : Memory) {a b : Addr} (v : Word) (hb : b ≠ a) : (m.write a v).read b = m.read b := by
  have hn : b.toNat ≠ a.toNat := fun h => hb (BitVec.eq_of_toNat_eq h)
  simp only [Memory.read, Memory.write, lowIndex, highIndex]
  rw [byteAt_setByte_other, byteAt_setByte_other, byteAt_setByte_other, byteAt_setByte_other] <;> omega

/-- Nothing listed reads as 0 everywhere. -/
@[simp] theorem read_nil (a : Addr) : Memory.read [] a = 0#16 := by
  simp [Memory.read, Memory.byteAt, unlistedByte]

end Sys2Proof.Laws
end

