-- ==== Sys2Proof/Laws/PerInstr.lean ====
section
/-! SUPPORT. Facts stated of every instruction, one lemma per constructor. Family `MatchesRow`: the word of an
instruction, whatever its operands, is selected by the row of R70's table that names its opcode and operation. -/

namespace Sys2Proof.Laws

/-- A row of R70's table names the instruction's opcode and operation, and selects the instruction's word. -/
def MatchesRow.Statement (i : Instr) : Prop :=
  ∃ r ∈ matchRows, r.opcode = i.opcode ∧ r.alt = i.alt ∧ r.selects (encode i) = true

/-- An ORI instruction's word is selected by a row of its opcode. -/
theorem MatchesRow.ori (op : OriOp) (rd : Reg) (im10 : BitVec 10) (value : Word)
    (hv : placeField 3 0 (Config.opcodeValue (.ori op)).toNat = value) :
    MatchRow.selects ⟨.ori op, none, 0x0007, value⟩ (encodeOri Config.codeMaps op rd im10) = true := by
  subst hv
  exact beq_iff_eq.mpr (encodeORI_low _ _ _)

/-- An ORRI instruction's word is selected by a row of its opcode. -/
theorem MatchesRow.orri (op : OrriOp) (rd r1 : Reg) (im7 : Word) (value : Word)
    (hv : placeField 3 0 (Config.opcodeValue (.orri op)).toNat = value) :
    MatchRow.selects ⟨.orri op, none, 0x0007, value⟩ (encodeOrri Config.codeMaps op rd r1 im7) = true := by
  subst hv
  exact beq_iff_eq.mpr (encodeORRI_low _ _ _ _)

/-- A MATH instruction's word is selected by a row of its operation. -/
theorem MatchesRow.math (alt : Alt) (rd r1 r2 : Reg) (value : Word)
    (hv : placeField 3 0 (Config.opcodeValue .math).toNat ||| placeField 3 9 (Config.altValue alt).toNat = value) :
    MatchRow.selects ⟨.math, some alt, 0x0E07, value⟩ (encodeMath Config.codeMaps alt rd r1 r2) = true := by
  subst hv
  exact beq_iff_eq.mpr (encodeORRAR_low _ _ _ _ _)

theorem MatchesRow.lui (rd : Reg) (im10 : BitVec 10) : MatchesRow.Statement (.lui rd im10) :=
  ⟨⟨.ori .lui, none, 0x0007, 0x0000⟩, by decide, rfl, rfl, MatchesRow.ori _ _ _ _ (by decide)⟩

theorem MatchesRow.auipc (rd : Reg) (im10 : BitVec 10) : MatchesRow.Statement (.auipc rd im10) :=
  ⟨⟨.ori .auipc, none, 0x0007, 0x0001⟩, by decide, rfl, rfl, MatchesRow.ori _ _ _ _ (by decide)⟩

theorem MatchesRow.jalr (rd r1 : Reg) (im7 : Word) : MatchesRow.Statement (.jalr rd r1 im7) :=
  ⟨⟨.orri .jalr, none, 0x0007, 0x0002⟩, by decide, rfl, rfl, MatchesRow.orri _ _ _ _ _ (by decide)⟩

theorem MatchesRow.beq (rd r1 : Reg) (im7 : Word) : MatchesRow.Statement (.beq rd r1 im7) :=
  ⟨⟨.orri .beq, none, 0x0007, 0x0003⟩, by decide, rfl, rfl, MatchesRow.orri _ _ _ _ _ (by decide)⟩

theorem MatchesRow.lw (rd r1 : Reg) (im7 : Word) : MatchesRow.Statement (.lw rd r1 im7) :=
  ⟨⟨.orri .lw, none, 0x0007, 0x0004⟩, by decide, rfl, rfl, MatchesRow.orri _ _ _ _ _ (by decide)⟩

theorem MatchesRow.sw (rd r1 : Reg) (im7 : Word) : MatchesRow.Statement (.sw rd r1 im7) :=
  ⟨⟨.orri .sw, none, 0x0007, 0x0005⟩, by decide, rfl, rfl, MatchesRow.orri _ _ _ _ _ (by decide)⟩

theorem MatchesRow.addi (rd r1 : Reg) (im7 : Word) : MatchesRow.Statement (.addi rd r1 im7) :=
  ⟨⟨.orri .addi, none, 0x0007, 0x0006⟩, by decide, rfl, rfl, MatchesRow.orri _ _ _ _ _ (by decide)⟩

theorem MatchesRow.add (rd r1 r2 : Reg) : MatchesRow.Statement (.add rd r1 r2) :=
  ⟨⟨.math, some .add, 0x0E07, 0x0007⟩, by decide, rfl, rfl, MatchesRow.math _ _ _ _ _ (by decide)⟩

theorem MatchesRow.sub (rd r1 r2 : Reg) : MatchesRow.Statement (.sub rd r1 r2) :=
  ⟨⟨.math, some .sub, 0x0E07, 0x0207⟩, by decide, rfl, rfl, MatchesRow.math _ _ _ _ _ (by decide)⟩

theorem MatchesRow.sll (rd r1 r2 : Reg) : MatchesRow.Statement (.sll rd r1 r2) :=
  ⟨⟨.math, some .sll, 0x0E07, 0x0407⟩, by decide, rfl, rfl, MatchesRow.math _ _ _ _ _ (by decide)⟩

theorem MatchesRow.srl (rd r1 r2 : Reg) : MatchesRow.Statement (.srl rd r1 r2) :=
  ⟨⟨.math, some .srl, 0x0E07, 0x0607⟩, by decide, rfl, rfl, MatchesRow.math _ _ _ _ _ (by decide)⟩

theorem MatchesRow.nand (rd r1 r2 : Reg) : MatchesRow.Statement (.nand rd r1 r2) :=
  ⟨⟨.math, some .nand, 0x0E07, 0x0807⟩, by decide, rfl, rfl, MatchesRow.math _ _ _ _ _ (by decide)⟩

theorem MatchesRow.and (rd r1 r2 : Reg) : MatchesRow.Statement (.and rd r1 r2) :=
  ⟨⟨.math, some .and, 0x0E07, 0x0A07⟩, by decide, rfl, rfl, MatchesRow.math _ _ _ _ _ (by decide)⟩

theorem MatchesRow.or (rd r1 r2 : Reg) : MatchesRow.Statement (.or rd r1 r2) :=
  ⟨⟨.math, some .or, 0x0E07, 0x0C07⟩, by decide, rfl, rfl, MatchesRow.math _ _ _ _ _ (by decide)⟩

theorem MatchesRow.lt (rd r1 r2 : Reg) : MatchesRow.Statement (.lt rd r1 r2) :=
  ⟨⟨.math, some .lt, 0x0E07, 0x0E07⟩, by decide, rfl, rfl, MatchesRow.math _ _ _ _ _ (by decide)⟩

end Sys2Proof.Laws
end

