-- ==== Sys2Proof/Laws/State.lean ====
section
/-! SUPPORT. What each update of the state leaves in each part of it, so that no proof unfolds an update. -/

namespace Sys2Proof.Laws

open Sys2Proof.Machine

/-! ### `setReg` -/

theorem reg_setReg (s : State) (r q : Reg) (v : Word) : (s.setReg r v).reg q = if q = r then v else s.reg q := by
  simp only [State.reg, State.setReg, Vector.getElem_set]
  by_cases h : q = r
  · simp [h]
  · rw [if_neg h, if_neg (fun e => h (BitVec.eq_of_toNat_eq e.symm))]

@[simp] theorem reg_setReg_same (s : State) (r : Reg) (v : Word) : (s.setReg r v).reg r = v := by
  simp [reg_setReg]

@[simp] theorem setReg_pc (s : State) (r : Reg) (v : Word) : (s.setReg r v).pc = s.pc := rfl
@[simp] theorem setReg_ir (s : State) (r : Reg) (v : Word) : (s.setReg r v).ir = s.ir := rfl
@[simp] theorem setReg_mem (s : State) (r : Reg) (v : Word) : (s.setReg r v).mem = s.mem := rfl
@[simp] theorem setReg_out (s : State) (r : Reg) (v : Word) : (s.setReg r v).out = s.out := rfl
@[simp] theorem setReg_fault (s : State) (r : Reg) (v : Word) : (s.setReg r v).fault = s.fault := rfl

/-! ### `setPc` -/

@[simp] theorem setPc_pc (s : State) (t : Word) : (s.setPc t).pc = t.setWidth 15 := rfl
@[simp] theorem setPc_reg (s : State) (t : Word) (q : Reg) : (s.setPc t).reg q = s.reg q := rfl
@[simp] theorem setPc_ir (s : State) (t : Word) : (s.setPc t).ir = s.ir := rfl
@[simp] theorem setPc_mem (s : State) (t : Word) : (s.setPc t).mem = s.mem := rfl
@[simp] theorem setPc_out (s : State) (t : Word) : (s.setPc t).out = s.out := rfl
@[simp] theorem setPc_fault (s : State) (t : Word) : (s.setPc t).fault = s.fault := rfl

/-! ### `store` -/

@[simp] theorem store_mem (s : State) (a : Addr) (v : Word) : (s.store a v).mem = s.mem.write a v := rfl
@[simp] theorem store_reg (s : State) (a : Addr) (v : Word) (q : Reg) : (s.store a v).reg q = s.reg q := rfl
@[simp] theorem store_pc (s : State) (a : Addr) (v : Word) : (s.store a v).pc = s.pc := rfl
@[simp] theorem store_ir (s : State) (a : Addr) (v : Word) : (s.store a v).ir = s.ir := rfl
@[simp] theorem store_out (s : State) (a : Addr) (v : Word) : (s.store a v).out = s.out := rfl
@[simp] theorem store_fault (s : State) (a : Addr) (v : Word) : (s.store a v).fault = s.fault := rfl

/-! ### `beginStep`: fetch and advance -/

@[simp] theorem beginStep_ir (s : State) : s.beginStep.ir = s.mem.read s.pc := rfl
@[simp] theorem beginStep_pc (s : State) : s.beginStep.pc = s.pc + 1 := rfl
@[simp] theorem beginStep_reg (s : State) (q : Reg) : s.beginStep.reg q = s.reg q := rfl
@[simp] theorem beginStep_mem (s : State) : s.beginStep.mem = s.mem := rfl
@[simp] theorem beginStep_out (s : State) : s.beginStep.out = s.out := rfl
@[simp] theorem beginStep_fault (s : State) : s.beginStep.fault = s.fault := rfl

/-! ### `forceZero` -/

theorem forceZero_reg (s : State) (q : Reg) : s.forceZero.reg q = if q = 0#3 then 0#16 else s.reg q :=
  reg_setReg s 0#3 q 0#16
@[simp] theorem forceZero_pc (s : State) : s.forceZero.pc = s.pc := rfl
@[simp] theorem forceZero_ir (s : State) : s.forceZero.ir = s.ir := rfl
@[simp] theorem forceZero_mem (s : State) : s.forceZero.mem = s.mem := rfl
@[simp] theorem forceZero_out (s : State) : s.forceZero.out = s.out := rfl
@[simp] theorem forceZero_fault (s : State) : s.forceZero.fault = s.fault := rfl

/-! ### `portPhase` -/

/-- All the port phase can do (R170). -/
theorem portPhase_cases (s : State) :
    (s.mem.read outputPort = 0#16 ∧ s.portPhase = s) ∨
    (s.mem.read outputPort ≠ 0#16 ∧
      s.portPhase = { s with out := s.out ++ [(s.mem.read outputPort).extractLsb' 0 8],
                             mem := s.mem.write outputPort 0#16 }) := by
  by_cases h : s.mem.read outputPort = 0#16
  · exact .inl ⟨h, by simp [State.portPhase, h]⟩
  · exact .inr ⟨h, by simp [State.portPhase, h]⟩

@[simp] theorem portPhase_reg (s : State) (q : Reg) : s.portPhase.reg q = s.reg q := by
  rcases portPhase_cases s with ⟨_, h⟩ | ⟨_, h⟩
  · rw [h]
  · rw [h]; rfl
@[simp] theorem portPhase_pc (s : State) : s.portPhase.pc = s.pc := by
  rcases portPhase_cases s with ⟨_, h⟩ | ⟨_, h⟩ <;> rw [h]
@[simp] theorem portPhase_ir (s : State) : s.portPhase.ir = s.ir := by
  rcases portPhase_cases s with ⟨_, h⟩ | ⟨_, h⟩ <;> rw [h]
@[simp] theorem portPhase_fault (s : State) : s.portPhase.fault = s.fault := by
  rcases portPhase_cases s with ⟨_, h⟩ | ⟨_, h⟩ <;> rw [h]

theorem portPhase_mem (s : State) :
    s.portPhase.mem = if s.mem.read outputPort ≠ 0#16 then s.mem.write outputPort 0#16 else s.mem := by
  rcases portPhase_cases s with ⟨h0, h⟩ | ⟨h0, h⟩ <;> rw [h] <;> simp [h0]

theorem portPhase_out (s : State) :
    s.portPhase.out =
      if s.mem.read outputPort ≠ 0#16 then s.out ++ [(s.mem.read outputPort).extractLsb' 0 8] else s.out := by
  rcases portPhase_cases s with ⟨h0, h⟩ | ⟨h0, h⟩ <;> rw [h] <;> simp [h0]

/-! ### `endStep` -/

theorem endStep_reg (s : State) (q : Reg) : s.endStep.reg q = if q = 0#3 then 0#16 else s.reg q := by
  simp [State.endStep, forceZero_reg]
@[simp] theorem endStep_pc (s : State) : s.endStep.pc = s.pc := by simp [State.endStep]
@[simp] theorem endStep_ir (s : State) : s.endStep.ir = s.ir := by simp [State.endStep]
@[simp] theorem endStep_fault (s : State) : s.endStep.fault = s.fault := by simp [State.endStep]
theorem endStep_mem (s : State) :
    s.endStep.mem = if s.mem.read outputPort ≠ 0#16 then s.mem.write outputPort 0#16 else s.mem :=
  portPhase_mem s.forceZero
theorem endStep_out (s : State) :
    s.endStep.out =
      if s.mem.read outputPort ≠ 0#16 then s.out ++ [(s.mem.read outputPort).extractLsb' 0 8] else s.out :=
  portPhase_out s.forceZero

/-! ### `writeLink` -/

theorem writeLink_reg (s : State) (rd q : Reg) :
    (s.writeLink rd).reg q = if q = rd ∧ rd ≠ 0#3 then s.link else s.reg q := by
  by_cases h : rd = 0#3
  · simp [State.writeLink, h]
  · simp [State.writeLink, h, reg_setReg]
@[simp] theorem writeLink_pc (s : State) (rd : Reg) : (s.writeLink rd).pc = s.pc := by
  by_cases h : rd = 0#3 <;> simp [State.writeLink, h]
@[simp] theorem writeLink_ir (s : State) (rd : Reg) : (s.writeLink rd).ir = s.ir := by
  by_cases h : rd = 0#3 <;> simp [State.writeLink, h]
@[simp] theorem writeLink_mem (s : State) (rd : Reg) : (s.writeLink rd).mem = s.mem := by
  by_cases h : rd = 0#3 <;> simp [State.writeLink, h]
@[simp] theorem writeLink_out (s : State) (rd : Reg) : (s.writeLink rd).out = s.out := by
  by_cases h : rd = 0#3 <;> simp [State.writeLink, h]
@[simp] theorem writeLink_fault (s : State) (rd : Reg) : (s.writeLink rd).fault = s.fault := by
  by_cases h : rd = 0#3 <;> simp [State.writeLink, h]

end Sys2Proof.Laws
end

