-- ==== Sys2Proof/Laws/Step.lean ====
section
/-! SUPPORT. One lemma per shared operation that says once everything it can do. -/

namespace Sys2Proof.Laws

open Sys2Proof.Machine

/-- Where a data access goes (R45): below 0x8000 the cell itself, above it what `DATA_OOR` says. -/
theorem dataCell_cases (oor : DataOor) (ea : Word) :
    (ea.toNat ≤ 0x7FFF ∧ dataCell oor ea = some (ea.setWidth 15)) ∨
    (0x7FFF < ea.toNat ∧ oor = .fault ∧ dataCell oor ea = none) ∨
    (0x7FFF < ea.toNat ∧ oor = .wrap ∧ dataCell oor ea = some (ea.setWidth 15)) := by
  unfold dataCell
  by_cases h : ea.toNat ≤ 0x7FFF
  · exact .inl ⟨h, if_pos h⟩
  · cases oor
    · exact .inr (.inl ⟨by omega, rfl, if_neg h⟩)
    · exact .inr (.inr ⟨by omega, rfl, if_neg h⟩)

/-- All LW can do: load one cell into its destination, or raise the model fault. -/
theorem loadWord_cases (oor : DataOor) (rd r1 : Reg) (im7 : Word) (s : State) :
    (∃ a, dataCell oor (s.displaced r1 im7) = some a ∧
      s.loadWord oor rd r1 im7 = .next (s.setReg rd (s.mem.read a))) ∨
    (dataCell oor (s.displaced r1 im7) = none ∧
      s.loadWord oor rd r1 im7 = raiseOutOfRange s (s.displaced r1 im7)) := by
  unfold State.loadWord
  cases h : dataCell oor (s.displaced r1 im7) with
  | some a => exact .inl ⟨a, rfl, rfl⟩
  | none => exact .inr ⟨rfl, rfl⟩

/-- All SW can do: store one register into one cell, or raise the model fault. -/
theorem storeWord_cases (oor : DataOor) (rd r1 : Reg) (im7 : Word) (s : State) :
    (∃ a, dataCell oor (s.displaced r1 im7) = some a ∧
      s.storeWord oor rd r1 im7 = .next (s.store a (s.reg rd))) ∨
    (dataCell oor (s.displaced r1 im7) = none ∧
      s.storeWord oor rd r1 im7 = raiseOutOfRange s (s.displaced r1 im7)) := by
  unfold State.storeWord
  cases h : dataCell oor (s.displaced r1 im7) with
  | some a => exact .inl ⟨a, rfl, rfl⟩
  | none => exact .inr ⟨rfl, rfl⟩

/-- All BEQ can do. -/
theorem execBeq_cases (rd r1 : Reg) (im7 : Word) (s : State) :
    (s.reg rd = s.reg r1 ∧ execBeq rd r1 im7 s = .next (s.setPc (s.branchTarget im7))) ∨
    (s.reg rd ≠ s.reg r1 ∧ execBeq rd r1 im7 s = .next s) := by
  by_cases h : s.reg rd = s.reg r1
  · exact .inl ⟨h, by simp [execBeq, State.branchTaken, h]⟩
  · exact .inr ⟨h, by simp [execBeq, State.branchTaken, h]⟩

/-- All an instruction can do in phase 3: write its destination register, link and jump, set the pc or leave the
state alone (BEQ), store one register into one cell (SW), or raise the model fault (LW and SW). -/
theorem exec_cases (i : Instr) (s : State) :
    (∃ rd v, i.destination = some rd ∧ exec i s = .next (s.setReg rd v)) ∨
    (∃ rd r1 im7, i = .jalr rd r1 im7 ∧
      exec i s = .next ((s.writeLink rd).setPc ((s.writeLink rd).displaced r1 im7))) ∨
    (∃ rd r1 im7, i = .beq rd r1 im7 ∧
      (exec i s = .next (s.setPc (s.branchTarget im7)) ∨ exec i s = .next s)) ∨
    (∃ rd r1 im7 a, i = .sw rd r1 im7 ∧ dataCell Config.dataOor (s.displaced r1 im7) = some a ∧
      exec i s = .next (s.store a (s.reg rd))) ∨
    (∃ rd r1 im7, (i = .lw rd r1 im7 ∨ i = .sw rd r1 im7) ∧
      dataCell Config.dataOor (s.displaced r1 im7) = none ∧
      exec i s = raiseOutOfRange s (s.displaced r1 im7)) := by
  cases i with
  | jalr rd r1 im7 => exact .inr (.inl ⟨rd, r1, im7, rfl, rfl⟩)
  | beq rd r1 im7 =>
    refine .inr (.inr (.inl ⟨rd, r1, im7, rfl, ?_⟩))
    rcases execBeq_cases rd r1 im7 s with ⟨_, h⟩ | ⟨_, h⟩
    · exact .inl h
    · exact .inr h
  | lw rd r1 im7 =>
    rcases loadWord_cases Config.dataOor rd r1 im7 s with ⟨a, _, h⟩ | ⟨hn, h⟩
    · exact .inl ⟨rd, _, rfl, h⟩
    · exact .inr (.inr (.inr (.inr ⟨rd, r1, im7, .inl rfl, hn, h⟩)))
  | sw rd r1 im7 =>
    rcases storeWord_cases Config.dataOor rd r1 im7 s with ⟨a, ha, h⟩ | ⟨hn, h⟩
    · exact .inr (.inr (.inr (.inl ⟨rd, r1, im7, a, rfl, ha, h⟩)))
    · exact .inr (.inr (.inr (.inr ⟨rd, r1, im7, .inr rfl, hn, h⟩)))
  | lui rd im10 => exact .inl ⟨rd, _, rfl, rfl⟩
  | auipc rd im10 => exact .inl ⟨rd, _, rfl, rfl⟩
  | addi rd r1 im7 => exact .inl ⟨rd, _, rfl, rfl⟩
  | add rd r1 r2 => exact .inl ⟨rd, _, rfl, rfl⟩
  | sub rd r1 r2 => exact .inl ⟨rd, _, rfl, rfl⟩
  | sll rd r1 r2 => exact .inl ⟨rd, _, rfl, rfl⟩
  | srl rd r1 r2 => exact .inl ⟨rd, _, rfl, rfl⟩
  | nand rd r1 r2 => exact .inl ⟨rd, _, rfl, rfl⟩
  | and rd r1 r2 => exact .inl ⟨rd, _, rfl, rfl⟩
  | or rd r1 r2 => exact .inl ⟨rd, _, rfl, rfl⟩
  | lt rd r1 r2 => exact .inl ⟨rd, _, rfl, rfl⟩

/-- The three statuses, with what each says of the fault record and pc (R28). -/
theorem status_cases (s : State) :
    (s.status = .faulted ∧ ∃ r, s.fault = some r) ∨
    (s.status = .halted ∧ s.fault = none ∧ s.pc = 0#15) ∨
    (s.status = .running ∧ s.fault = none ∧ s.pc ≠ 0#15) := by
  unfold State.status
  cases h : s.fault with
  | some r => exact .inl ⟨rfl, r, rfl⟩
  | none =>
    by_cases hp : s.pc = 0#15
    · exact .inr (.inl ⟨if_pos hp, rfl, hp⟩)
    · exact .inr (.inr ⟨if_neg hp, rfl, hp⟩)

/-- All a step can do, by the status of the machine (R205). -/
theorem cycle_cases (m : CodeMaps) (s : State) :
    (∃ r, s.fault = some r ∧ cycle m s = .fault r) ∨
    (s.fault = none ∧ s.pc = 0#15 ∧ cycle m s = .next s) ∨
    (s.fault = none ∧ s.pc ≠ 0#15 ∧ cycle m s = Result.endStep (executeWord m s.beginStep)) := by
  unfold cycle
  cases h : s.fault with
  | some r => exact .inl ⟨r, rfl, rfl⟩
  | none =>
    by_cases hp : s.pc = 0#15
    · exact .inr (.inl ⟨rfl, hp, if_pos hp⟩)
    · exact .inr (.inr ⟨rfl, hp, if_neg hp⟩)

/-- All phase 3 can do: run the instruction the word decodes to, or nothing where it decodes to none (R73). -/
theorem executeWord_cases (m : CodeMaps) (s : State) :
    (∃ i, decodeWith m s.ir = .ok i ∧ executeWord m s = exec i s) ∨
    (∃ e, decodeWith m s.ir = .error e ∧ executeWord m s = .next s) := by
  unfold executeWord
  cases h : decodeWith m s.ir with
  | ok i => exact .inl ⟨i, rfl, rfl⟩
  | error e => exact .inr ⟨e, rfl, rfl⟩

@[simp] theorem endStep_next (s : State) : Result.endStep (.next s) = .next s.endStep := rfl
@[simp] theorem endStep_fault' (r : Fault) : Result.endStep (.fault r) = .fault r := rfl
@[simp] theorem endStep_refused (r : Refusal) : Result.endStep (.refused r) = .refused r := rfl

/-- A step's end answers a next state exactly where phase 3 did. -/
theorem endStep_eq_next {o : Result} {t : State} (h : Result.endStep o = .next t) :
    ∃ u, o = .next u ∧ t = u.endStep := by
  cases o with
  | next u => exact ⟨u, rfl, by simpa using h.symm⟩
  | fault r => cases h
  | refused r => cases h

/-- All the host's single step can do (R212). -/
theorem singleStep_cases (s : State) :
    (∃ t, step s = .next t ∧ s.singleStep = t) ∨
    (∃ r, step s = .fault r ∧ s.singleStep = { s with fault := some r }) ∨
    (∃ r, step s = .refused r ∧ s.singleStep = s) := by
  unfold State.singleStep
  cases h : step s with
  | next t => exact .inl ⟨t, rfl, rfl⟩
  | fault r => exact .inr (.inl ⟨r, rfl, rfl⟩)
  | refused r => exact .inr (.inr ⟨r, rfl, rfl⟩)

/-- All a load can do (R202). -/
theorem load_cases (s : State) (ws : List Word) :
    (0x8000 < 0x0010 + ws.length ∧ s.load ws = (false, s)) ∨
    (0x0010 + ws.length ≤ 0x8000 ∧
      s.load ws = (true, { s with mem := s.mem.writeWords loadAddress ws })) := by
  have e : loadAddress.toNat = 0x0010 := rfl
  unfold State.load
  by_cases h : 0x0010 + ws.length > 0x8000
  · exact .inl ⟨h, if_pos (by rw [e]; exact h)⟩
  · exact .inr ⟨by omega, if_neg (by rw [e]; exact h)⟩

end Sys2Proof.Laws
end

