-- ==== Sys2Proof/Tests/Slice0.lean ====
section
/-! SUPPORT. The model's own tests. Expected values are the spec's: the encodings of R62 to R70, the vectors of
`95_test_vectors.md` (cited by section) and the rules' own examples. After them, for every statement with hypotheses,
a witness that they can be met. -/

namespace Sys2Proof.Tests

open Sys2Proof Sys2Proof.Machine Sys2Proof.Safety Sys2Proof.Laws

/-! ### WellFormed refuses each ill-formed operand: an im7 above 63 or below -64 -/

theorem test_wf_jalr : (Instr.jalr 1 5 64).wellFormed = false := by decide
theorem test_wf_beq : (Instr.beq 4 0 0xFFBF).wellFormed = false := by decide
theorem test_wf_lw : (Instr.lw 4 0 0x8000).wellFormed = false := by decide
theorem test_wf_sw : (Instr.sw 4 0 64).wellFormed = false := by decide
theorem test_wf_addi : (Instr.addi 4 0 0xFFBF).wellFormed = false := by decide
theorem test_wf_bounds : (Instr.addi 4 0 63).wellFormed = true ∧ (Instr.addi 4 0 0xFFC0).wellFormed = true := by decide

/-! ### Decoding: words written out bit by bit from R62 to R64 and R68, R69 -/

theorem test_decode_lui : decode 0b0000000001_100_000#16 = .ok (.lui 4 1) := by decide
theorem test_decode_auipc : decode 0b1111111111_100_001#16 = .ok (.auipc 4 1023) := by decide
theorem test_decode_jalr : decode 0b0000000_101_001_010#16 = .ok (.jalr 1 5 0) := by decide
theorem test_decode_beq : decode 0b1000000_000_000_011#16 = .ok (.beq 0 0 0xFFC0) := by decide
theorem test_decode_lw : decode 0b1111111_010_101_100#16 = .ok (.lw 5 2 0xFFFF) := by decide
theorem test_decode_sw : decode 0b0000001_000_100_101#16 = .ok (.sw 4 0 1) := by decide
theorem test_decode_addi : decode 0b0111111_100_101_110#16 = .ok (.addi 5 4 63) := by decide
theorem test_decode_add : decode 0b101_0_000_100_110_111#16 = .ok (.add 6 4 5) := by decide
theorem test_decode_add_bit12 : decode 0b101_1_000_100_110_111#16 = .ok (.add 6 4 5) := by decide
theorem test_decode_sub : decode 0b101_0_001_100_110_111#16 = .ok (.sub 6 4 5) := by decide
theorem test_decode_sll : decode 0b101_0_010_100_110_111#16 = .ok (.sll 6 4 5) := by decide
theorem test_decode_srl : decode 0b101_0_011_100_110_111#16 = .ok (.srl 6 4 5) := by decide
theorem test_decode_nand : decode 0b101_0_100_100_110_111#16 = .ok (.nand 6 4 5) := by decide
theorem test_decode_and : decode 0b101_0_101_100_110_111#16 = .ok (.and 6 4 5) := by decide
theorem test_decode_or : decode 0b101_0_110_100_110_111#16 = .ok (.or 6 4 5) := by decide
theorem test_decode_lt : decode 0b101_0_111_100_110_111#16 = .ok (.lt 6 4 5) := by decide

/-- `95_test_vectors.md` 2.1. -/
theorem test_decode_fields :
    decodeFields 0x7E00 = ⟨0, 0, 0, 7, 3, 504, 0x003F⟩ ∧ decodeFields 0x8000 = ⟨0, 0, 0, 0, 4, 512, 0xFFC0⟩ ∧
    decodeFields 0xB137 = ⟨7, 6, 4, 0, 5, 708, 0xFFD8⟩ := by decide

/-- The words of `95_test_vectors.md` P1 and 2.3, 2.4. -/
theorem test_encode :
    encode (.addi 4 4 0xFFFF) = 0xFF26 ∧ encode (.beq 4 5 5) = 0x0B63 ∧ encode (.sw 0 5 0) = 0x0145 ∧
    encode (.lt 6 5 4) = 0x8F77 ∧ encode (.lui 4 1023) = 0xFFE0 := by decide

theorem test_table_word : decodeTableWord 16 0x0A26 = some (.addi 4 0 5) := by decide

/-! ### One step on a small state -/

/-- The reset state with `w` at `a`, pc at `a`, and the given registers and cells. -/
def small (a : Addr) (w : Word) (regs : List (Reg × Word)) (cells : List (Addr × Word)) : State :=
  let s := cells.foldl (fun s c => s.store c.1 c.2) ({ State.reset with pc := a }.store a w)
  regs.foldl (fun s r => s.setReg r.1 r.2) s

/-- The step answers a next state of which `p` holds. -/
def after (s : State) (p : State → Bool) : Bool :=
  match step s with
  | .next t => p t
  | .fault _ => false
  | .refused _ => false

/-- 2.2. -/
theorem test_lui : after (small 0x10 0x8020 [] []) (fun t => t.reg 4 == 0x8000 && t.pc == 0x11) = true := by decide
/-- 2.2. -/
theorem test_lui_zero : after (small 0x10 0x0140 [] []) (fun t => t.reg 0 == 0) = true := by decide
/-- 2.2: the sum wraps modulo 2^16. -/
theorem test_auipc_wraps : after (small 0x7FFE 0xFFE1 [] []) (fun t => t.reg 4 == 0x7FBF && t.pc == 0x7FFF) = true := by
  decide
/-- 2.2: the pc has wrapped to 0, so the machine is halted. -/
theorem test_auipc_top : after (small 0x7FFF 0x00E1 [] []) (fun t => t.reg 4 == 0x00C0 && t.status == .halted) = true := by
  decide
/-- 2.3: the target comes from the link just written. -/
theorem test_jalr_same : after (small 0x30 0x0722 [(4, 0x1234)] []) (fun t => t.reg 4 == 0x32 && t.pc == 0x35) = true := by
  decide
/-- 2.3: bit 15 of the target is dropped, and the link is A+2 in 16 bits. -/
theorem test_jalr_link : after (small 0x7FFE 0x014A [(5, 0x8010)] []) (fun t => t.reg 1 == 0x8000 && t.pc == 0x10) = true := by
  decide
/-- 2.3: the target wraps modulo 2^15. -/
theorem test_beq_taken : after (small 0x10 0x8003 [] []) (fun t => t.pc == 0x7FD1) = true := by decide
/-- 2.3. -/
theorem test_beq_not_taken : after (small 0x30 0x0B63 [(4, 0x8000)] []) (fun t => t.pc == 0x31) = true := by decide
/-- 2.4. -/
theorem test_lw : after (small 0x10 0xFEAC [(2, 0x80)] [(0x7F, 7)]) (fun t => t.reg 5 == 7) = true := by decide
/-- 2.4: the effective address wraps to 0x0001. -/
theorem test_lw_wraps : after (small 0x10 0x0564 [(5, 0xFFFF)] [(1, 9)]) (fun t => t.reg 4 == 9) = true := by decide
/-- 2.4. -/
theorem test_sw : after (small 0x10 0x016D [(5, 0x40)] []) (fun t => t.mem.read 0x40 == 0x40) = true := by decide
/-- 2.4: only the low byte is emitted, and the cell is cleared. -/
theorem test_sw_port :
    after (small 0x10 0x0225 [(4, 0x4100)] []) (fun t => t.out == [0x00] && t.mem.read 1 == 0) = true := by decide
/-- 2.4: the model fault, and the state kept but for the record. -/
theorem test_lw_out_of_range :
    (small 0x10 0x0364 [(5, 0x7FFF)] []).singleStep =
      { small 0x10 0x0364 [(5, 0x7FFF)] [] with fault := some (.dataAddressOutOfRange 0x8000 0x10 0x0364) } := by decide
/-- 2.4: the other value of `DATA_OOR`. -/
theorem test_wrap : dataCell .wrap 0xFFFF = some 0x7FFF ∧ dataCell .fault 0xFFFF = none := by decide
/-- 2.5. -/
theorem test_addi : after (small 0x10 0x8126 [(4, 0x100)] []) (fun t => t.reg 4 == 0xC0) = true := by decide
/-- 2.6. -/
theorem test_add : after (small 0x10 0xA137 [(4, 0x1234), (5, 0x4321)] []) (fun t => t.reg 6 == 0x5555) = true := by decide
/-- 2.6. -/
theorem test_sub : after (small 0x10 0xA337 [(4, 3), (5, 4)] []) (fun t => t.reg 6 == 0xFFFF) = true := by decide
/-- 2.6. -/
theorem test_sll : after (small 0x10 0xA537 [(4, 1), (5, 15)] []) (fun t => t.reg 6 == 0x8000) = true := by decide
/-- 2.6: decision D11. -/
theorem test_sll_16 : after (small 0x10 0xA537 [(4, 1), (5, 16)] []) (fun t => t.reg 6 == 0) = true := by decide
/-- 2.6. -/
theorem test_srl : after (small 0x10 0xA737 [(4, 0x8000), (5, 4)] []) (fun t => t.reg 6 == 0x800) = true := by decide
/-- 2.6: decision D11. -/
theorem test_srl_256 : after (small 0x10 0xA737 [(4, 0xFFFF), (5, 0x100)] []) (fun t => t.reg 6 == 0) = true := by decide
/-- 2.6. -/
theorem test_nand : after (small 0x10 0xA937 [(4, 0xFF), (5, 0xF0F)] []) (fun t => t.reg 6 == 0xFFF0) = true := by decide
/-- 2.6. -/
theorem test_and : after (small 0x10 0xAB37 [(4, 0xFF), (5, 0xF0F)] []) (fun t => t.reg 6 == 0x000F) = true := by decide
/-- 2.6. -/
theorem test_or : after (small 0x10 0xAD37 [(4, 0xFF), (5, 0xF0F)] []) (fun t => t.reg 6 == 0x0FFF) = true := by decide
/-- 2.6: the comparison is unsigned. -/
theorem test_lt : after (small 0x10 0xAF37 [(4, 1), (5, 0xFFFF)] []) (fun t => t.reg 6 == 1) = true := by decide
/-- 2.6. -/
theorem test_lt_not : after (small 0x10 0xAF37 [(4, 0xFFFF), (5, 1)] []) (fun t => t.reg 6 == 0) = true := by decide
/-- 2.7: a non-zero port cell is emitted after the first step. -/
theorem test_port_at_reset :
    after (small 0x10 0x0006 [] [(1, 0x48)]) (fun t => t.out == [0x48] && t.mem.read 1 == 0 && t.ir == 6) = true := by
  decide
/-- 2.8. -/
theorem test_load : (State.reset.load [0xBEEF]).1 = true ∧ (State.reset.load [0xBEEF]).2.mem.read 0x10 = 0xBEEF := by
  decide
/-- The host's placing of a word: the first step after reset runs it. -/
theorem test_with_fetch_word : after (State.reset.withFetchWord 16 0x0A26) (fun t => t.reg 4 == 5) = true := by decide

/-! ### The toolchain -/

/-- 2.9 and S10. -/
theorem test_assemble :
    assemble [.nop, .halt, .word (-1), .li 4 63, .li 4 64, .li 4 (-5)] =
      .ok [0x0006, 0x0002, 0xFFFF, 0x7E26, 0x0060, 0x0126, 0xFFE0, 0x7726] := by decide
/-- S5, S3 and the bounds of imm16 in R85. -/
theorem test_bounds :
    assemble [.orri .addi 4 4 64] = .error .literalTooLarge ∧ assemble [.ori .lui 4 1024] = .error .literalTooLarge ∧
    assemble [.word (-32768)] = .ok [0x8000] ∧ assemble [.word 65536] = .error .literalTooLarge := by decide
/-- R83: a label names its unit's address; S11: a second definition is fatal and both positions are reported. -/
theorem test_labels :
    assemble [.nop, .label "b", .la 4 "b"] = .ok [0x0006, 0x2226] ∧
    assemble [.label "a", .nop, .label "a"] = .error (.duplicateLabel "a" 0 2) := by decide
/-- R82 and R84: `addi t0, t0, -1` from its tokens. -/
theorem test_tokens :
    assembleTokens [wordToken "addi", wordToken "t0", .comma, wordToken "t0", .comma, .minus, .number .decimal [1], .eof] =
      .ok [0xFF26] := by decide
/-- R82: the three kinds of literal. -/
theorem test_literals :
    numberToken? ['0', 'x', '1', 'f'] = some (.number .hexadecimal [1, 15]) ∧
    numberToken? ['0', '1', '7'] = some (.number .octal [1, 7]) ∧ numberToken? ['0'] = some (.number .decimal [0]) := by
  decide

/-! ### Witnesses: the hypotheses of each statement can be met -/

theorem witness_EveryWordDecodesToItsRow : Config.codeMaps.Bijective := codeMaps_bijective

theorem witness_DecodeOfEncodeIsIdentity :
    Config.codeMaps.Bijective ∧ (Instr.addi 4 4 63).wellFormed = true ∧ (Instr.sw 4 4 0xFFC0).wellFormed = true :=
  ⟨codeMaps_bijective, by decide⟩

theorem witness_FieldsOfEncodersRoundTrip :
    (7 < 8 ∧ 7 < 8 ∧ 1023 < 1024) ∧ (7 < 8 ∧ 7 < 8 ∧ 7 < 8 ∧ (-64 : Int) ≤ -64 ∧ (-64 : Int) ≤ 63) ∧
    ((-64 : Int) ≤ 63 ∧ (63 : Int) ≤ 63) := by decide

theorem witness_EncodeOfDecodeRestoresWord :
    (decode 0x0A26 = .ok (.addi 4 0 5) ∧ (Instr.addi 4 0 5).opcode ≠ .math) ∧
    (decode 0xB137 = .ok (.add 6 4 5) ∧ (Instr.add 6 4 5).opcode = .math) := by decide

/-- A word of opcode `o` meets the hypotheses of `DecodesAs`. -/
def DecodesAsWitness (o : Opcode) (a : Option Alt) (w : Word) : Prop :=
  Config.codeMaps.Bijective ∧ (decodeFields w).op = Config.codeMaps.opcode o ∧
    ∀ x, a = some x → (decodeFields w).alt = Config.codeMaps.alt x

theorem witness_LuiWritesUpperImmediate :
    DecodesAsWitness (.ori .lui) none 0x0060 ∧ (decodeFields 0x0060).im10 = 1 :=
  ⟨⟨codeMaps_bijective, by decide, by simp⟩, by decide⟩

theorem witness_AuipcAddsUpperImmediateToPc : DecodesAsWitness (.ori .auipc) none 0x0061 :=
  ⟨codeMaps_bijective, by decide, by simp⟩

theorem witness_JalrLinksThenJumps :
    DecodesAsWitness (.orri .jalr) none 0x014A ∧ (0#3 = 0#3) ∧ (7#3 ≠ 0#3) :=
  ⟨⟨codeMaps_bijective, by decide, by simp⟩, by decide⟩

theorem witness_BeqBranchesIfEqual :
    DecodesAsWitness (.orri .beq) none 0x0223 ∧ (small 0x10 0x0223 [] []).reg 4 = (small 0x10 0x0223 [] []).reg 0 ∧
    (small 0x10 0x0223 [(4, 1)] []).reg 4 ≠ (small 0x10 0x0223 [(4, 1)] []).reg 0 :=
  ⟨⟨codeMaps_bijective, by decide, by simp⟩, by decide⟩

theorem witness_AddiAddsImmediate : DecodesAsWitness (.orri .addi) none 0x0A26 :=
  ⟨codeMaps_bijective, by decide, by simp⟩

theorem witness_LwLoadsCell :
    DecodesAsWitness (.orri .lw) none 0xFEAC ∧
    dataCell Config.dataOor ((small 0x10 0xFEAC [(2, 0x8000)] []).displaced 2 0xFFFF) = some 0x7FFF :=
  ⟨⟨codeMaps_bijective, by decide, by simp⟩, by decide⟩

theorem witness_SwStoresCell :
    DecodesAsWitness (.orri .sw) none 0x0225 ∧ State.reset.mem.wf ∧
    dataCell Config.dataOor (State.reset.displaced 0 1) = some 1 :=
  ⟨⟨codeMaps_bijective, by decide, by simp⟩, by decide⟩

theorem witness_EffectiveAddressNamesCell : (0x7FFF#16).toNat < 32768 ∧ 32768 ≤ (0x8000#16).toNat := by decide

theorem witness_OutOfRangeAccessFaults :
    (let s := small 0x10 0x0364 [(5, 0x7FFF)] []
     32768 ≤ (s.displaced 5 1).toNat ∧ s.mem.wf) ∧
    32768 ≤ (State.reset.displaced 0 0xFFFF).toNat := by decide

theorem witness_AddAddsModulo : DecodesAsWitness .math (some .add) 0xA137 :=
  ⟨codeMaps_bijective, by decide, by rintro _ ⟨⟩; decide⟩
theorem witness_SubSubtractsModulo : DecodesAsWitness .math (some .sub) 0xA337 :=
  ⟨codeMaps_bijective, by decide, by rintro _ ⟨⟩; decide⟩
theorem witness_SllShiftsLeft : DecodesAsWitness .math (some .sll) 0xA537 :=
  ⟨codeMaps_bijective, by decide, by rintro _ ⟨⟩; decide⟩
theorem witness_SrlShiftsRight : DecodesAsWitness .math (some .srl) 0xA737 :=
  ⟨codeMaps_bijective, by decide, by rintro _ ⟨⟩; decide⟩
theorem witness_NandComplementsAnd : DecodesAsWitness .math (some .nand) 0xA937 :=
  ⟨codeMaps_bijective, by decide, by rintro _ ⟨⟩; decide⟩
theorem witness_AndIsBitwise : DecodesAsWitness .math (some .and) 0xAB37 :=
  ⟨codeMaps_bijective, by decide, by rintro _ ⟨⟩; decide⟩
theorem witness_OrIsBitwise : DecodesAsWitness .math (some .or) 0xAD37 :=
  ⟨codeMaps_bijective, by decide, by rintro _ ⟨⟩; decide⟩
theorem witness_LtComparesUnsigned : DecodesAsWitness .math (some .lt) 0xAF37 :=
  ⟨codeMaps_bijective, by decide, by rintro _ ⟨⟩; decide⟩

theorem witness_InstructionReadsOnlySources :
    let s := small 0x10 0xA137 [(4, 1), (5, 2)] []
    let u := s.setReg 7 9
    (∀ q ∈ (Instr.add 6 4 5).sources, u.reg q = s.reg q) ∧ u.pc = s.pc ∧ u.ir = s.ir ∧ u.mem = s.mem ∧
      u.out = s.out ∧ u.fault = s.fault ∧ exec (.add 6 4 5) s = .next (s.setReg 6 3) :=
  ⟨by decide, rfl, rfl, rfl, rfl, rfl, rfl⟩

/-- A running machine at `addi t0, zero, 5`, and the state after its step. -/
theorem witness_StepRunsDecodedInstruction :
    let s := small 0x10 0x0A26 [] []
    (({ s with fault := some (.dataAddressOutOfRange 0x8000 0x10 0x0364) } : State).fault ≠ none) ∧
    (({ s with pc := 0 } : State).fault = none ∧ ({ s with pc := 0 } : State).pc = 0#15) ∧
    s.fault = none ∧ s.pc ≠ 0#15 ∧ decode (s.mem.read s.pc) = .ok (.addi 4 0 5) ∧
    (Instr.addi 4 0 5).wellFormed = true ∧
    exec (.addi 4 0 5) { s with ir := s.mem.read s.pc, pc := s.pc + 1#15 } =
      .next (({ s with ir := 0x0A26, pc := 0x11 } : State).setReg 4 5) ∧
    exec (.lw 4 0 0xFFFF) s.beginStep = .fault (.dataAddressOutOfRange 0xFFFF 0x10 0x0A26) :=
  ⟨by decide, by decide, by decide, by decide, by decide, by decide, rfl, rfl⟩

theorem witness_HaltedStepIsNoOp : ({ State.reset with pc := 0 } : State).status = .halted := by decide

/-- Code maps that assign op values 1 to 7 to nothing. -/
def gappedMaps : CodeMaps := { Config.codeMaps with opcode := fun _ => 0 }

/-- Code maps that assign alt values 1 to 7 to nothing. -/
def altGappedMaps : CodeMaps := { Config.codeMaps with alt := fun _ => 0 }

theorem witness_UnassignedWordIsNoOp :
    (let s := small 0x10 0x0061 [] [(1, 0x48)]
     s.status = .running ∧ s.mem.wf ∧ s.mem.read 0x0001#15 ≠ 0#16 ∧
       decodeWith gappedMaps (s.mem.read s.pc) = .error (.unassignedOpcode 1)) ∧
    (let s := small 0x7FFF 0xAF37 [] []
     s.status = .running ∧ s.mem.wf ∧ s.mem.read 0x0001#15 = 0#16 ∧
       decodeWith altGappedMaps (s.mem.read s.pc) = .error (.unassignedAlt 7)) := by decide

theorem witness_RunningStepCompletesOrFaults : State.reset.status = .running := by decide

theorem witness_FaultKeepsStateAndStops :
    (small 0x10 0x0364 [(5, 0x7FFF)] []).fault = none ∧
    step (small 0x10 0x0364 [(5, 0x7FFF)] []) = .fault (.dataAddressOutOfRange 0x8000 0x10 0x0364) := ⟨by decide, rfl⟩

/-- The state after a step, for the witnesses of statements about one. -/
def nextOf (s : State) : State :=
  match step s with
  | .next t => t
  | .fault _ => s
  | .refused _ => s

theorem witness_StepForcesRegisterZero :
    State.reset.status = .running ∧ step State.reset = .next (nextOf State.reset) := ⟨by decide, rfl⟩

theorem witness_InstructionRegisterHoldsFetchedWord :
    exec (.addi 4 0 5) State.reset = .next (State.reset.setReg 4 5) ∧
    (State.reset.status = .running ∧ step State.reset = .next (nextOf State.reset)) ∧
    (({ State.reset with pc := 0 } : State).status = .halted ∧
      step { State.reset with pc := 0 } = .next { State.reset with pc := 0 }) :=
  ⟨rfl, ⟨by decide, rfl⟩, ⟨by decide, rfl⟩⟩

theorem witness_StepWritesOnlyDestination :
    let s := small 0x10 0x0A26 [] []
    s.status = .running ∧ decode (s.mem.read s.pc) = .ok (.addi 4 0 5) ∧ step s = .next (nextOf s) ∧
      (5#3 ≠ 0#3 ∧ (Instr.addi 4 0 5).destination ≠ some 5) := ⟨by decide, by decide, rfl, by decide⟩

/-- `sw t0, zero, 21` at 0x0014, where the next step fetches the stored word. -/
def storeAhead : State := small 0x14 0x2A25 [(4, 0x0006)] []

theorem witness_StepWritesOnlyStoredCell :
    storeAhead.status = .running ∧ decode (storeAhead.mem.read storeAhead.pc) = .ok (.sw 4 0 21) ∧
    step storeAhead = .next (nextOf storeAhead) ∧ 0x7FFF#15 ≠ 0x0001#15 ∧
    ∀ rd r1 im7, Instr.sw 4 0 21 = .sw rd r1 im7 →
      dataCell Config.dataOor (storeAhead.displaced r1 im7) ≠ some 0x7FFF#15 :=
  ⟨by decide, by decide, rfl, by decide, by rintro _ _ _ ⟨⟩; decide⟩

theorem witness_PcAdvancesWithoutJump :
    let s := small 0x7FFF 0x0B63 [(4, 0x8000)] []
    s.status = .running ∧ decode (s.mem.read s.pc) = .ok (.beq 4 5 5) ∧ step s = .next (nextOf s) ∧
      (∀ rd r1 im7, Instr.beq 4 5 5 ≠ .jalr rd r1 im7) ∧
      ∀ rd r1 im7, Instr.beq 4 5 5 = .beq rd r1 im7 → s.reg rd ≠ s.reg r1 :=
  ⟨by decide, by decide, rfl, fun _ _ _ => Instr.noConfusion, by rintro _ _ _ ⟨⟩; decide⟩

theorem witness_PortPhaseEmitsLowByte :
    (let s := small 0x10 0x0225 [(4, 0x4100)] []
     s.status = .running ∧ s.mem.wf ∧ decode (s.mem.read s.pc) = .ok (.sw 4 0 1) ∧
       exec (.sw 4 0 1) s.beginStep = .next (s.beginStep.store 1 0x4100) ∧
       (s.beginStep.store 1 0x4100).mem.read 0x0001#15 ≠ 0#16) ∧
    (exec (.sw 0 0 1) State.reset.beginStep = .next (State.reset.beginStep.store 1 0) ∧
       (State.reset.beginStep.store 1 0).mem.read 0x0001#15 = 0#16) ∧
    ({ State.reset with pc := 0 } : State).status ≠ .running ∧
    step (small 0x10 0x0364 [(5, 0x7FFF)] []) = .fault (.dataAddressOutOfRange 0x8000 0x10 0x0364) :=
  ⟨⟨by decide, by decide, by decide, rfl, by decide⟩, ⟨rfl, by decide⟩, by decide, rfl⟩

theorem witness_StepLeavesPortCellClear :
    let s := small 0x10 0x0225 [(4, 0x4100)] []
    s.mem.wf ∧ s.status = .running ∧ step s = .next (nextOf s) := ⟨by decide, by decide, rfl⟩

theorem inv_of_decide {s : State} (h : s.reg 0#3 = 0#16 ∧ s.mem.wf) : Inv s := ⟨h.1, h.2⟩

theorem witness_ZeroDestinationStepHasNoEffect :
    (let s := small 0x10 0x0A06 [] []
     Inv s ∧ s.status = .running ∧ s.mem.read 0x0001#15 = 0#16 ∧ decode (s.mem.read s.pc) = .ok (.addi 0 0 5) ∧
       step s = .next (nextOf s) ∧ (Instr.addi 0 0 5).destination = some 0#3 ∧
       ∀ rd r1 im7, Instr.addi 0 0 5 ≠ .jalr rd r1 im7) ∧
    (let s := small 0x30 0x0003 [] []
     Inv s ∧ s.status = .running ∧ s.mem.read 0x0001#15 = 0#16 ∧ decode (s.mem.read s.pc) = .ok (.beq 0 0 0#16) ∧
       step s = .next (nextOf s)) :=
  ⟨⟨inv_of_decide (by decide), by decide, by decide, by decide, rfl, by decide, fun _ _ _ => Instr.noConfusion⟩,
    ⟨inv_of_decide (by decide), by decide, by decide, by decide, rfl⟩⟩

theorem witness_NextFetchSeesStore :
    Inv storeAhead ∧ storeAhead.status = .running ∧
    decode (storeAhead.mem.read storeAhead.pc) = .ok (.sw 4 0 21) ∧
    dataCell Config.dataOor (storeAhead.displaced 0 21) = some 0x15 ∧ (0x15#15 ≠ 0x0001#15) ∧
    step storeAhead = .next (nextOf storeAhead) ∧ (nextOf storeAhead).pc = 0x15 ∧
    (nextOf storeAhead).status = .running ∧ step (nextOf storeAhead) = .next (nextOf (nextOf storeAhead)) :=
  ⟨inv_of_decide (by decide), by decide, by decide, by decide, by decide, rfl, by decide, by decide, rfl⟩

theorem witness_InvHoldsAtReset : zeroDraws.initMem.wf := by decide

theorem witness_StepKeepsInv : Inv storeAhead ∧ step storeAhead = .next (nextOf storeAhead) :=
  ⟨inv_of_decide (by decide), rfl⟩

theorem witness_RunKeepsInvAndOutput :
    Inv State.reset ∧
    State.runToCompletion 1 (State.reset.load [0x0002]).2 = some (State.reset.load [0x0002]).2.singleStep :=
  ⟨inv_of_decide (by decide), by decide⟩

theorem witness_RunEndsAtFirstStop :
    State.runToCompletion 1 (State.reset.load [0x0002]).2 = some (State.reset.load [0x0002]).2.singleStep := by decide

theorem witness_SelfBranchNeverEnds :
    let s := small 0x30 0xFE03 [] []
    s.status = .running ∧ s.pc ≠ 0x0001#15 ∧ decode (s.mem.read s.pc) = .ok (.beq 0 0 0xFFFF#16) := by decide

theorem witness_LoadPlacesWordsOrFails :
    State.reset.mem.wf ∧ (List.replicate 32752 0x0006#16).length ≤ 32752 ∧
    32752 < (List.replicate 32753 0x0006#16).length ∧ (0x000F#15).toNat < 0x0010 ∧ 0x0010 + 32751 ≤ (0x7FFF#15).toNat :=
  ⟨by decide, by rw [List.length_replicate], by rw [List.length_replicate]; decide, by decide, by decide⟩

theorem witness_NopAndHaltEmitTheirWords :
    let s := small 0x10 0x0002 [] []
    Inv s ∧ s.status = .running ∧ s.mem.read s.pc = 0x0002#16 :=
  ⟨inv_of_decide (by decide), by decide, by decide⟩

theorem witness_PlacedWordIsFetchedNext : State.reset.mem.wf ∧ State.reset.status = .running := by decide

theorem witness_CanonicalMemoryIsDetermined :
    Memory.wf [(2, 1)] ∧ ∀ a, Memory.read [(2, 1)] a = Memory.read [(2, 1)] a := ⟨by decide, fun _ => rfl⟩

theorem witness_OperandsLandInFields :
    Config.codeMaps.Bijective ∧ ((0 : Int) ≤ 1023 ∧ (1023 : Int) ≤ 1023) ∧ ((-1 : Int) < 0 ∨ (1023 : Int) < -1) ∧
    ((-64 : Int) ≤ -64 ∧ (-64 : Int) ≤ 63) ∧ ((64 : Int) < -64 ∨ (63 : Int) < 64) ∧
    ((-32768 : Int) ≤ -32768 ∧ (-32768 : Int) ≤ 65535) ∧ ((65536 : Int) < -32768 ∨ (65535 : Int) < 65536) :=
  ⟨codeMaps_bijective, by decide, by decide, by decide, by decide, by decide, by decide⟩

theorem witness_LoadDirectivesLeaveValue :
    Config.codeMaps.Bijective ∧ ((-32768 : Int) ≤ 65535 ∧ (65535 : Int) ≤ 65535) ∧
    LabelTable.address? [("b", 0x40)] "b" = some 0x40 ∧ 7#3 ≠ 0#3 ∧ State.reset.reg 0#3 = 0#16 ∧ 65535 < 65536 :=
  ⟨codeMaps_bijective, by decide, by decide, by decide, by decide, by decide⟩

theorem witness_LabelsNameTheirWords :
    assembleWith Config.codeMaps [.nop, .label "b", .la 4 "b"] = .ok [0x0006, 0x2226] ∧
    ([.nop, .label "b", .la 4 "b"] : List Line) = [.nop] ++ .label "b" :: [.la 4 "b"] := by decide

theorem witness_BadLabelsAreFatal :
    ([.label "a", .nop, .label "a"] : List Line) = [] ++ .label "a" :: ([.nop] ++ .label "a" :: []) ∧
    (Line.la 4 "b" ∈ [Line.la 4 "b"] ∧ Line.label "b" ∉ [Line.la 4 "b"]) := by decide

end Sys2Proof.Tests
end

section
/-! SUPPORT. That phase 3 keeps the instruction register, and what a step is in a running and in a halted machine. -/

namespace Sys2Proof.Laws

open Sys2Proof.Machine

/-- The model fault is no completed step. -/
@[simp] theorem raiseOutOfRange_ne_next (s : State) (ea : Word) (t : State) : raiseOutOfRange s ea ≠ .next t := by
  simp [raiseOutOfRange]

/-- Only phase 1 of a step writes ir (R27). -/
theorem exec_keeps_ir {i : Instr} {s t : State} (h : exec i s = .next t) : t.ir = s.ir := by
  rcases exec_cases i s with ⟨rd, v, _, setsReg⟩ | ⟨rd, r1, im7, _, jumps⟩ | ⟨rd, r1, im7, _, branches | falls⟩ |
    ⟨rd, r1, im7, a, _, _, stores⟩ | ⟨rd, r1, im7, _, _, faults⟩
  · cases setsReg.symm.trans h; exact setReg_ir s rd v
  · cases jumps.symm.trans h; rw [setPc_ir, writeLink_ir]
  · cases branches.symm.trans h; exact setPc_ir s _
  · cases falls.symm.trans h; rfl
  · cases stores.symm.trans h; exact store_ir s a _
  · exact absurd (faults.symm.trans h) (raiseOutOfRange_ne_next s _ t)

theorem executeWord_keeps_ir {m : CodeMaps} {s t : State} (h : executeWord m s = .next t) : t.ir = s.ir := by
  rcases executeWord_cases m s with ⟨i, _, he⟩ | ⟨_, _, he⟩ <;> rw [he] at h
  · exact exec_keeps_ir h
  · cases h; rfl

theorem status_eq_running_iff (s : State) : s.status = .running ↔ s.fault = none ∧ s.pc ≠ 0#15 := by
  rcases status_cases s with ⟨hs, r, hf⟩ | ⟨hs, hf, hpc⟩ | ⟨hs, hf, hpc⟩ <;> simp [*]

theorem status_eq_halted_iff (s : State) : s.status = .halted ↔ s.fault = none ∧ s.pc = 0#15 := by
  rcases status_cases s with ⟨hs, r, hf⟩ | ⟨hs, hf, hpc⟩ | ⟨hs, hf, hpc⟩ <;> simp [*]

/-- A running machine's step is all five phases (R205). -/
theorem step_of_running {s : State} (hs : s.status = .running) :
    step s = Result.endStep (executeWord Config.codeMaps s.beginStep) := by
  obtain ⟨hf, hpc⟩ := (status_eq_running_iff s).mp hs
  rcases cycle_cases Config.codeMaps s with ⟨r, hr, _⟩ | ⟨_, h0, _⟩ | ⟨_, _, hc⟩
  · simp [hf] at hr
  · exact absurd h0 hpc
  · exact hc

/-- A halted machine's step changes nothing (R206). -/
theorem step_of_halted {s : State} (hs : s.status = .halted) : step s = .next s := by
  obtain ⟨hf, hpc⟩ := (status_eq_halted_iff s).mp hs
  rcases cycle_cases Config.codeMaps s with ⟨r, hr, _⟩ | ⟨_, _, hc⟩ | ⟨_, hne, _⟩
  · simp [hf] at hr
  · exact hc
  · exact absurd hpc hne

/-- A completed step of a running machine ran phase 3 to its end and then phases 4 and 5 (R205). -/
theorem step_running_eq_next {s t : State} (hs : s.status = .running) (h : step s = .next t) :
    ∃ u, executeWord Config.codeMaps s.beginStep = .next u ∧ t = u.endStep :=
  endStep_eq_next ((step_of_running hs).symm.trans h)

end Sys2Proof.Laws
end

section
/-! PROOFS. Register 0 and the instruction register over a whole step (R22, R27). -/

namespace Sys2Proof.Proofs

open Sys2Proof.Machine Sys2Proof.Safety Sys2Proof.Laws

/-- Phase 4 as a frame. -/
theorem forceZero_onlyRegister (u : State) : OnlyRegister 0#3 u u.forceZero := by
  refine ⟨fun q hq => ?_, fun _ _ => rfl, rfl, rfl, rfl, rfl⟩
  have hq0 : q ≠ 0#3 := by simpa using hq
  rw [forceZero_reg, if_neg hq0]

/-- Settles O32: whatever phase 3 left, the step ends with phase 4's force, which the port phase does not undo. -/
theorem stepForcesRegisterZero : Obligations.StepForcesRegisterZero := by
  refine ⟨fun u => ⟨?_, forceZero_onlyRegister u⟩, fun s t hs h => ?_⟩
  · rw [forceZero_reg, if_pos rfl]
  · obtain ⟨u, _, rfl⟩ := step_running_eq_next hs h
    rw [endStep_reg, if_pos rfl]

/-- Settles O33: phase 1 writes ir with the word at pc, and no later phase changes it. -/
theorem instructionRegisterHoldsFetchedWord : Obligations.InstructionRegisterHoldsFetchedWord := by
  refine ⟨fun i s t h => exec_keeps_ir h, fun s t hs h => ?_, fun s t hs h => ?_⟩
  · obtain ⟨u, hu, rfl⟩ := step_running_eq_next hs h
    calc u.endStep.ir = u.ir := endStep_ir u
      _ = s.beginStep.ir := executeWord_keeps_ir hu
      _ = s.mem.read s.pc := beginStep_ir s
  · rw [step_of_halted hs] at h
    cases h; rfl

end Sys2Proof.Proofs
end

section
/-! SUPPORT. How an ORI word decodes, what its immediate is worth, and the frame of a register write. -/

namespace Sys2Proof.Laws

open Sys2Proof.Machine Sys2Proof.Safety

/-- An ORI word is its opcode's instruction over rd and im10, whatever its other bits (R61, R68). -/
theorem decodesAs_ori (op : OriOp) : DecodesAs (.ori op) none (fun d => .ofOri op d.rd d.im10) := by
  intro m w hm hop _
  have hfind : m.opcodeOf? (decodeFields w).op = some (.ori op) := by
    rw [hop]
    exact opcodeOf?_opcode hm.1.1 (.ori op)
  simp only [decodeWith, Fields.instr, hfind]

/-- The shift of R67 loses no bit: ten bits moved up by six fit a word. -/
theorem upperImmediate_toNat (im10 : BitVec 10) : (upperImmediate im10).toNat = im10.toNat * 64 := by
  have hbound : im10.toNat < 1024 := im10.isLt
  simp only [upperImmediate, zext16, BitVec.toNat_shiftLeft, BitVec.toNat_setWidth, Nat.shiftLeft_eq]
  omega

/-- im10 stands in bits 15:6 of its word, so shifting it into place is masking the word (R67, R100). -/
theorem upperImmediate_decodeFields (w : Word) : upperImmediate (decodeFields w).im10 = w &&& 0xFFC0#16 := by
  apply BitVec.eq_of_getLsbD_eq
  intro i hi
  simp only [upperImmediate, zext16, decodeFields, BitVec.getLsbD_shiftLeft, BitVec.getLsbD_setWidth,
    BitVec.getLsbD_extractLsb', BitVec.getLsbD_and]
  interval_cases i <;> simp

/-- A register write as a frame. -/
theorem setReg_onlyRegister (s : State) (rd : Reg) (v : Word) : OnlyRegister rd s (s.setReg rd v) := by
  refine ⟨fun q hq => ?_, fun _ _ => rfl, rfl, rfl, rfl, rfl⟩
  have hne : q ≠ rd := by simpa using hq
  rw [reg_setReg, if_neg hne]

/-- However phase 3 left register 0, it is 0 after the step (R22). -/
@[simp] theorem endStep_reg_zero (s : State) : s.endStep.reg 0#3 = 0#16 := by
  rw [endStep_reg, if_pos rfl]

/-- LUI is one register write, from every state (R100). -/
theorem exec_lui (rd : Reg) (im10 : BitVec 10) (s : State) :
    exec (.lui rd im10) s = .next (s.setReg rd (upperImmediate im10)) := rfl

end Sys2Proof.Laws
end

section
/-! PROOFS. LUI (R100). -/

namespace Sys2Proof.Proofs

open Sys2Proof.Machine Sys2Proof.Safety Sys2Proof.Laws

/-- Settles O9: LUI writes one register, with the upper immediate, which is `im10 * 64` and is the masked word. -/
theorem luiWritesUpperImmediate : Obligations.LuiWritesUpperImmediate := by
  refine ⟨decodesAs_ori .lui, fun s rd im10 => ⟨_, exec_lui rd im10 s, setReg_onlyRegister s rd _, ?value, ?mask,
    endStep_reg_zero _⟩⟩
  case value => rw [reg_setReg_same, upperImmediate_toNat]
  case mask =>
    intro w hw
    rw [reg_setReg_same, ← hw, upperImmediate_decodeFields]

end Sys2Proof.Proofs
end

section
/-! SUPPORT. How an ORRI word decodes, and what a word displaced by a signed immediate is worth. -/

namespace Sys2Proof.Laws

open Sys2Proof.Machine Sys2Proof.Safety

/-- An ORRI word is its opcode's instruction over rd, r1 and im7, whatever its other bits (R63, R68). -/
theorem decodesAs_orri (op : OrriOp) : DecodesAs (.orri op) none (fun d => .ofOrri op d.rd d.r1 d.im7) := by
  intro m w hm hop _
  have hfind : m.opcodeOf? (decodeFields w).op = some (.orri op) := by
    rw [hop]
    exact opcodeOf?_opcode hm.1.1 (.orri op)
  simp only [decodeWith, Fields.instr, hfind]

/-- A word's signed and unsigned values differ by a multiple of 2^16, so a 16-bit sum may count its right summand
as signed. -/
theorem toNat_add_signed (a b : Word) : ((a + b).toNat : Int) = ((a.toNat : Int) + b.toInt) % 65536 := by
  rw [BitVec.toNat_add, BitVec.toInt_eq_toNat_cond]
  split <;> omega

/-- `x[r1] + im7` with im7 signed, modulo 2^16 (R45, R130). -/
theorem displaced_toNat (s : State) (r1 : Reg) (im7 : Word) :
    ((s.displaced r1 im7).toNat : Int) = (((s.reg r1).toNat : Int) + im7.toInt) % 65536 :=
  toNat_add_signed (s.reg r1) im7

/-- ADDI is one register write, from every state (R130). -/
theorem exec_addi (rd r1 : Reg) (im7 : Word) (s : State) :
    exec (.addi rd r1 im7) s = .next (s.setReg rd (s.displaced r1 im7)) := rfl

end Sys2Proof.Laws
end

section
/-! PROOFS. ADDI (R130). -/

namespace Sys2Proof.Proofs

open Sys2Proof.Machine Sys2Proof.Safety Sys2Proof.Laws

/-- Settles O13: ADDI writes one register, with the register r1 displaced by the signed immediate. -/
theorem addiAddsImmediate : Obligations.AddiAddsImmediate := by
  refine ⟨decodesAs_orri .addi, fun s rd r1 im7 => ⟨_, exec_addi rd r1 im7 s, setReg_onlyRegister s rd _, ?value,
    endStep_reg_zero _⟩⟩
  case value => rw [reg_setReg_same, displaced_toNat]

end Sys2Proof.Proofs
end

section
/-! SUPPORT. The host's single step where the machine's step completes. -/

namespace Sys2Proof.Laws

open Sys2Proof.Machine

/-- The host's single step lands in the state that a completed step answers (R212). -/
theorem singleStep_of_step_next {s t : State} (h : step s = .next t) : s.singleStep = t := by
  rcases singleStep_cases s with ⟨u, hnext, hu⟩ | ⟨r, hfault, _⟩ | ⟨r, hrefused, _⟩
  · cases h.symm.trans hnext; exact hu
  · cases h.symm.trans hfault
  · cases h.symm.trans hrefused

end Sys2Proof.Laws
end

section
/-! PROOFS. The halted machine (R206). -/

namespace Sys2Proof.Proofs

open Sys2Proof.Machine Sys2Proof.Laws

/-- Settles O28: a halted machine's step completes in the same state, so the host's single step lands there too. -/
theorem haltedStepIsNoOp : Obligations.HaltedStepIsNoOp := by
  intro s hs
  have hstep : step s = .next s := step_of_halted hs
  exact ⟨hstep, singleStep_of_step_next hstep⟩

end Sys2Proof.Proofs
end

section
/-! SUPPORT. The fields of an encoded word (R62 to R65, R71): what each encoder argument is read back as. -/

namespace Sys2Proof.Laws

/-- A placed field is read back at its place, cut to its width. -/
theorem extractLsb'_placeField_same {width lo : Nat} (h : lo + width ≤ 16) (v : Int) :
    (placeField width lo v).extractLsb' lo width = BitVec.ofInt width v := by
  apply BitVec.eq_of_getLsbD_eq
  intro i hi
  have hlt : lo + i < 16 := by omega
  rw [BitVec.getLsbD_extractLsb', placeField_getLsbD]
  simp [hi, hlt]

/-- A placed field is 0 at every place it does not overlap. -/
theorem extractLsb'_placeField_disjoint {width lo width' lo' : Nat} (h : lo' + width' ≤ lo ∨ lo + width ≤ lo')
    (v : Int) : (placeField width lo v).extractLsb' lo' width' = 0#width' := by
  apply BitVec.eq_of_getLsbD_eq
  intro i hi
  rw [BitVec.getLsbD_extractLsb', placeField_getLsbD, BitVec.getLsbD_zero]
  rcases h with below | above
  · have hlo : ¬ lo ≤ lo' + i := by omega
    simp [hlo]
  · have hwidth : width ≤ lo' + i - lo := by omega
    simp [BitVec.getLsbD_of_ge _ _ hwidth]

@[simp] theorem decodeFields_encodeORI (op rd im10 : Int) :
    (decodeFields (encodeORI op rd im10)).op = BitVec.ofInt 3 op ∧
    (decodeFields (encodeORI op rd im10)).rd = BitVec.ofInt 3 rd ∧
    (decodeFields (encodeORI op rd im10)).im10 = BitVec.ofInt 10 im10 := by
  simp [decodeFields, encodeORI, BitVec.extractLsb'_or, extractLsb'_placeField_same, extractLsb'_placeField_disjoint]

@[simp] theorem decodeFields_encodeORRI (op rd r1 im7 : Int) :
    (decodeFields (encodeORRI op rd r1 im7)).op = BitVec.ofInt 3 op ∧
    (decodeFields (encodeORRI op rd r1 im7)).rd = BitVec.ofInt 3 rd ∧
    (decodeFields (encodeORRI op rd r1 im7)).r1 = BitVec.ofInt 3 r1 ∧
    (decodeFields (encodeORRI op rd r1 im7)).im7 = sext16 (BitVec.ofInt 7 im7) := by
  simp [decodeFields, encodeORRI, BitVec.extractLsb'_or, extractLsb'_placeField_same, extractLsb'_placeField_disjoint]

@[simp] theorem decodeFields_encodeORRAR (op rd r1 alt r2 : Int) :
    (decodeFields (encodeORRAR op rd r1 alt r2)).op = BitVec.ofInt 3 op ∧
    (decodeFields (encodeORRAR op rd r1 alt r2)).rd = BitVec.ofInt 3 rd ∧
    (decodeFields (encodeORRAR op rd r1 alt r2)).r1 = BitVec.ofInt 3 r1 ∧
    (decodeFields (encodeORRAR op rd r1 alt r2)).alt = BitVec.ofInt 3 alt ∧
    (decodeFields (encodeORRAR op rd r1 alt r2)).r2 = BitVec.ofInt 3 r2 := by
  simp [decodeFields, encodeORRAR, BitVec.extractLsb'_or, extractLsb'_placeField_same,
    extractLsb'_placeField_disjoint]

/-- A 7-bit two's-complement field holds the values from -64 to 63 (R63, R65). -/
theorem toInt_sext16_ofInt {v : Int} (hlo : -64 ≤ v) (hhi : v ≤ 63) : (sext16 (BitVec.ofInt 7 v)).toInt = v := by
  rw [sext16, BitVec.toInt_signExtend_of_le (by decide), BitVec.toInt_ofInt]
  exact Int.bmod_eq_of_le (by omega) (by omega)

theorem im7InRange_iff (im7 : Word) : im7InRange im7 = true ↔ -64 ≤ im7.toInt ∧ im7.toInt ≤ 63 := by
  simp [im7InRange]

/-- Every 7-bit field, sign-extended, is an im7 in range. -/
theorem im7InRange_sext16 (v : BitVec 7) : im7InRange (sext16 v) = true := by
  have hlo := BitVec.le_two_mul_toInt (x := v)
  have hhi := BitVec.two_mul_toInt_lt (x := v)
  rw [im7InRange_iff, sext16, BitVec.toInt_signExtend_of_le (by decide)]
  omega

/-- An im7 in range survives its field. -/
theorem sext16_ofInt_toInt {im7 : Word} (h : im7InRange im7 = true) : sext16 (BitVec.ofInt 7 im7.toInt) = im7 := by
  obtain ⟨hlo, hhi⟩ := (im7InRange_iff im7).mp h
  exact BitVec.eq_of_toInt_eq (toInt_sext16_ofInt hlo hhi)

end Sys2Proof.Laws
end

section
/-! SUPPORT. How a MATH word decodes, and that each format's encoder is undone by the decoder. -/

namespace Sys2Proof.Laws

open Sys2Proof.Safety

/-- A MATH word is its operation over rd, r1 and r2, whatever its other bits (R64, R66, R69). -/
theorem decodesAs_math (alt : Alt) : DecodesAs .math (some alt) (fun d => .ofAlt alt d.rd d.r1 d.r2) := by
  intro m w hm hop halt
  have hfindOp : m.opcodeOf? (decodeFields w).op = some .math := by
    rw [hop]
    exact opcodeOf?_opcode hm.1.1 .math
  have hfindAlt : m.altOf? (decodeFields w).alt = some alt := by
    rw [halt alt rfl]
    exact altOf?_alt hm.2.1 alt
  simp only [decodeWith, Fields.instr, hfindOp, hfindAlt]

section Formats

variable {m : CodeMaps} (hm : m.Bijective)
include hm

theorem decodeWith_encodeOri (op : OriOp) (rd : Reg) (im10 : BitVec 10) :
    decodeWith m (encodeOri m op rd im10) = .ok (.ofOri op rd im10) := by
  rw [decodesAs_ori op m _ hm (by simp [encodeOri]) (by simp)]
  simp [encodeOri]

theorem decodeWith_encodeOrri (op : OrriOp) (rd r1 : Reg) {im7 : Word} (h : im7InRange im7 = true) :
    decodeWith m (encodeOrri m op rd r1 im7) = .ok (.ofOrri op rd r1 im7) := by
  rw [decodesAs_orri op m _ hm (by simp [encodeOrri]) (by simp)]
  simp [encodeOrri, sext16_ofInt_toInt h]

theorem decodeWith_encodeMath (alt : Alt) (rd r1 r2 : Reg) :
    decodeWith m (encodeMath m alt rd r1 r2) = .ok (.ofAlt alt rd r1 r2) := by
  rw [decodesAs_math alt m _ hm (by simp [encodeMath]) (by simp [encodeMath])]
  simp [encodeMath]

end Formats

end Sys2Proof.Laws
end

section
/-! PROOFS. Encoding, from an instruction to its word and back (R71, R72). -/

namespace Sys2Proof.Proofs

open Sys2Proof.Laws

/-- Settles O2: each constructor's word is the one of its format, whose fields the decoder reads back. -/
theorem decodeOfEncodeIsIdentity : Obligations.DecodeOfEncodeIsIdentity := by
  intro m i hm hi
  cases i with
  | lui rd im10 => exact decodeWith_encodeOri hm .lui rd im10
  | auipc rd im10 => exact decodeWith_encodeOri hm .auipc rd im10
  | jalr rd r1 im7 => exact decodeWith_encodeOrri hm .jalr rd r1 hi
  | beq rd r1 im7 => exact decodeWith_encodeOrri hm .beq rd r1 hi
  | lw rd r1 im7 => exact decodeWith_encodeOrri hm .lw rd r1 hi
  | sw rd r1 im7 => exact decodeWith_encodeOrri hm .sw rd r1 hi
  | addi rd r1 im7 => exact decodeWith_encodeOrri hm .addi rd r1 hi
  | add rd r1 r2 => exact decodeWith_encodeMath hm .add rd r1 r2
  | sub rd r1 r2 => exact decodeWith_encodeMath hm .sub rd r1 r2
  | sll rd r1 r2 => exact decodeWith_encodeMath hm .sll rd r1 r2
  | srl rd r1 r2 => exact decodeWith_encodeMath hm .srl rd r1 r2
  | nand rd r1 r2 => exact decodeWith_encodeMath hm .nand rd r1 r2
  | and rd r1 r2 => exact decodeWith_encodeMath hm .and rd r1 r2
  | or rd r1 r2 => exact decodeWith_encodeMath hm .or rd r1 r2
  | lt rd r1 r2 => exact decodeWith_encodeMath hm .lt rd r1 r2

/-- Settles O3: a value within its field's width is its own remainder modulo that width. -/
theorem fieldsOfEncodersRoundTrip : Obligations.FieldsOfEncodersRoundTrip := by
  refine ⟨fun op rd im10 hop hrd him => ?ori, fun op rd r1 im7 hop hrd hr1 hlo hhi => ?orri,
    fun op rd r1 alt r2 hop hrd hr1 halt hr2 => ?orrar⟩
  case ori => simp [Nat.mod_eq_of_lt, hop, hrd, him]
  case orri => simp [Nat.mod_eq_of_lt, hop, hrd, hr1, toInt_sext16_ofInt hlo hhi]
  case orrar => simp [Nat.mod_eq_of_lt, hop, hrd, hr1, halt, hr2]

end Sys2Proof.Proofs
end

section
/-! SUPPORT. All that decoding can do, that it is total under bijective maps, and the table of R70 by fields. -/

namespace Sys2Proof.Laws

theorem opcodeOf?_eq_some {m : CodeMaps} {v : BitVec 3} {o : Opcode} (h : m.opcodeOf? v = some o) :
    m.opcode o = v := by
  simpa using List.find?_some h

theorem altOf?_eq_some {m : CodeMaps} {v : BitVec 3} {a : Alt} (h : m.altOf? v = some a) : m.alt a = v := by
  simpa using List.find?_some h

/-- All a decoded word can be: the instruction of its opcode's format over its fields (R61 to R64). -/
theorem decodeWith_eq_ok {m : CodeMaps} {w : Word} {i : Instr} (h : decodeWith m w = .ok i) :
    (∃ o, m.opcodeOf? (decodeFields w).op = some (.ori o) ∧
      i = .ofOri o (decodeFields w).rd (decodeFields w).im10) ∨
    (∃ o, m.opcodeOf? (decodeFields w).op = some (.orri o) ∧
      i = .ofOrri o (decodeFields w).rd (decodeFields w).r1 (decodeFields w).im7) ∨
    (∃ a, m.opcodeOf? (decodeFields w).op = some .math ∧ m.altOf? (decodeFields w).alt = some a ∧
      i = .ofAlt a (decodeFields w).rd (decodeFields w).r1 (decodeFields w).r2) := by
  simp only [decodeWith, Fields.instr] at h
  cases hop : m.opcodeOf? (decodeFields w).op with
  | none => simp [hop] at h
  | some o =>
    cases o with
    | ori o => exact .inl ⟨o, rfl, by simpa [hop] using h.symm⟩
    | orri o => exact .inr (.inl ⟨o, rfl, by simpa [hop] using h.symm⟩)
    | math =>
      cases halt : m.altOf? (decodeFields w).alt with
      | none => simp [hop, halt] at h
      | some a => exact .inr (.inr ⟨a, rfl, rfl, by simpa [hop, halt] using h.symm⟩)

@[simp] theorem ofOri_wellFormed (o : OriOp) (rd : Reg) (im10 : BitVec 10) :
    (Instr.ofOri o rd im10).wellFormed = true := by cases o <;> rfl
@[simp] theorem ofOrri_wellFormed (o : OrriOp) (rd r1 : Reg) (im7 : Word) :
    (Instr.ofOrri o rd r1 im7).wellFormed = im7InRange im7 := by cases o <;> rfl
@[simp] theorem ofAlt_wellFormed (a : Alt) (rd r1 r2 : Reg) : (Instr.ofAlt a rd r1 r2).wellFormed = true := by
  cases a <;> rfl

@[simp] theorem ofOri_opcode (o : OriOp) (rd : Reg) (im10 : BitVec 10) :
    (Instr.ofOri o rd im10).opcode = .ori o ∧ (Instr.ofOri o rd im10).alt = none := by cases o <;> exact ⟨rfl, rfl⟩
@[simp] theorem ofOrri_opcode (o : OrriOp) (rd r1 : Reg) (im7 : Word) :
    (Instr.ofOrri o rd r1 im7).opcode = .orri o ∧ (Instr.ofOrri o rd r1 im7).alt = none := by
  cases o <;> exact ⟨rfl, rfl⟩
@[simp] theorem ofAlt_opcode (a : Alt) (rd r1 r2 : Reg) :
    (Instr.ofAlt a rd r1 r2).opcode = .math ∧ (Instr.ofAlt a rd r1 r2).alt = some a := by
  cases a <;> exact ⟨rfl, rfl⟩

/-- Only an im7 can be too wide for its field, and the decoder sign-extends one from seven bits (R65). -/
theorem wellFormed_of_decodeWith {m : CodeMaps} {w : Word} {i : Instr} (h : decodeWith m w = .ok i) :
    i.wellFormed = true := by
  rcases decodeWith_eq_ok h with ⟨o, _, rfl⟩ | ⟨o, _, rfl⟩ | ⟨a, _, _, rfl⟩
  · exact ofOri_wellFormed ..
  · rw [ofOrri_wellFormed]; exact im7InRange_sext16 _
  · exact ofAlt_wellFormed ..

/-- Bijective maps leave no value unassigned, so every word is an instruction (R73). -/
theorem decodeWith_total {m : CodeMaps} (hm : m.Bijective) (w : Word) : ∃ i, decodeWith m w = .ok i := by
  obtain ⟨o, hop⟩ := hm.1.2 (decodeFields w).op
  cases o with
  | ori o => exact ⟨_, decodesAs_ori o m w hm hop.symm (by simp)⟩
  | orri o => exact ⟨_, decodesAs_orri o m w hm hop.symm (by simp)⟩
  | math =>
    obtain ⟨a, halt⟩ := hm.2.2 (decodeFields w).alt
    exact ⟨_, decodesAs_math a m w hm hop.symm (by rintro _ ⟨⟩; exact halt.symm)⟩

theorem decode_total (w : Word) : ∃ i, decode w = .ok i := decodeWith_total codeMaps_bijective w

/-- The bits of a word that R70's masks test, from the two fields that stand there. -/
def selectorBits (op alt : BitVec 3) : Word := op.setWidth 16 ||| alt.setWidth 16 <<< 9

theorem and_mask_eq_selectorBits (w : Word) :
    w &&& 0x0E07#16 = selectorBits (decodeFields w).op (decodeFields w).alt := by
  apply BitVec.eq_of_getLsbD_eq
  intro i hi
  simp only [selectorBits, decodeFields, BitVec.getLsbD_and, BitVec.getLsbD_or, BitVec.getLsbD_shiftLeft,
    BitVec.getLsbD_setWidth, BitVec.getLsbD_extractLsb']
  interval_cases i <;> simp

/-- A row of R70's table tests no bit but those of the two fields. -/
theorem selects_eq_selects_selectorBits {r : MatchRow} (hr : r ∈ matchRows) (w : Word) :
    r.selects w = r.selects (selectorBits (decodeFields w).op (decodeFields w).alt) := by
  have hmask : 0x0E07#16 &&& r.mask = r.mask := by
    have hall : ∀ r ∈ matchRows, 0x0E07#16 &&& r.mask = r.mask := by decide
    exact hall r hr
  rw [← and_mask_eq_selectorBits]
  simp only [MatchRow.selects, BitVec.and_assoc, hmask]

/-- R70's table by the values of the two fields: exactly one row, of the opcode and operation the maps give them. -/
theorem matchRows_filter_selectorBits (op alt : BitVec 3) :
    ∃ r ∈ matchRows, matchRows.filter (fun r => r.selects (selectorBits op alt)) = [r] ∧
      Config.codeMaps.opcodeOf? op = some r.opcode ∧
      r.alt = if r.opcode = .math then Config.codeMaps.altOf? alt else none := by
  revert op alt
  decide

/-- Exactly one row of R70's table selects a word, by its two fields. -/
theorem matchRows_filter (w : Word) :
    ∃ r, matchRows.filter (fun r => r.selects w) = [r] ∧
      Config.codeMaps.opcodeOf? (decodeFields w).op = some r.opcode ∧
      r.alt = if r.opcode = .math then Config.codeMaps.altOf? (decodeFields w).alt else none := by
  obtain ⟨r, _, hfilter, hop, halt⟩ := matchRows_filter_selectorBits (decodeFields w).op (decodeFields w).alt
  refine ⟨r, ?_, hop, halt⟩
  rw [← hfilter]
  exact List.filter_congr fun r hr => selects_eq_selects_selectorBits hr w

end Sys2Proof.Laws
end

section
/-! PROOFS. Every word is an instruction, by its row of the table (R70, R73). -/

namespace Sys2Proof.Proofs

open Sys2Proof.Laws

/-- Settles O1: the row a word's op and alt fields pick names the opcode and operation the maps give those fields. -/
theorem everyWordDecodesToItsRow : Obligations.EveryWordDecodesToItsRow := by
  refine ⟨fun m w hm => ?_, fun w => ?_⟩
  · obtain ⟨i, hi⟩ := decodeWith_total hm w
    exact ⟨i, hi, wellFormed_of_decodeWith hi⟩
  · obtain ⟨i, hi⟩ := decode_total w
    obtain ⟨r, hfilter, hop, halt⟩ := matchRows_filter w
    refine ⟨i, r, hi, hfilter, ?_⟩
    rcases decodeWith_eq_ok hi with ⟨o, ho, rfl⟩ | ⟨o, ho, rfl⟩ | ⟨a, ho, ha, rfl⟩
    · have hr : r.opcode = .ori o := Option.some.inj (hop.symm.trans ho)
      simp [halt, hr]
    · have hr : r.opcode = .orri o := Option.some.inj (hop.symm.trans ho)
      simp [halt, hr]
    · have hr : r.opcode = .math := Option.some.inj (hop.symm.trans ho)
      simp [halt, hr, ha]

end Sys2Proof.Proofs
end

section
/-! SUPPORT. A word from its own fields, the encoders' values as numbers, and the fields of a word with bit 12
flipped. -/

namespace Sys2Proof.Laws

@[simp] theorem encodeWith_ofOri (m : CodeMaps) (o : OriOp) (rd : Reg) (im10 : BitVec 10) :
    encodeWith m (.ofOri o rd im10) = encodeOri m o rd im10 := by cases o <;> rfl
@[simp] theorem encodeWith_ofOrri (m : CodeMaps) (o : OrriOp) (rd r1 : Reg) (im7 : Word) :
    encodeWith m (.ofOrri o rd r1 im7) = encodeOrri m o rd r1 im7 := by cases o <;> rfl
@[simp] theorem encodeWith_ofAlt (m : CodeMaps) (a : Alt) (rd r1 r2 : Reg) :
    encodeWith m (.ofAlt a rd r1 r2) = encodeMath m a rd r1 r2 := by cases a <;> rfl

/-- The fields of an ORI word cover it. -/
theorem encodeORI_decodeFields (w : Word) :
    encodeORI (decodeFields w).op.toNat (decodeFields w).rd.toNat (decodeFields w).im10.toNat = w := by
  apply BitVec.eq_of_getLsbD_eq
  intro i hi
  simp only [encodeORI, BitVec.getLsbD_or, placeField_getLsbD, ofInt_toNat, decodeFields, BitVec.getLsbD_extractLsb']
  interval_cases i <;> simp

/-- The fields of an ORRI word cover it; im7's sign copies are cut off again. -/
theorem encodeORRI_decodeFields (w : Word) :
    encodeORRI (decodeFields w).op.toNat (decodeFields w).rd.toNat (decodeFields w).r1.toNat
      (decodeFields w).im7.toInt = w := by
  apply BitVec.eq_of_getLsbD_eq
  intro i hi
  simp only [encodeORRI, BitVec.getLsbD_or, placeField_getLsbD, ofInt_toNat, ofInt_toInt_low (show 7 ≤ 16 by decide),
    decodeFields, sext16, BitVec.getLsbD_setWidth, BitVec.getLsbD_signExtend, BitVec.getLsbD_extractLsb']
  interval_cases i <;> simp

/-- The fields of an ORRAR word cover all of it but bit 12 (R66). -/
theorem encodeORRAR_decodeFields (w : Word) :
    encodeORRAR (decodeFields w).op.toNat (decodeFields w).rd.toNat (decodeFields w).r1.toNat
      (decodeFields w).alt.toNat (decodeFields w).r2.toNat = w &&& 0xEFFF#16 := by
  apply BitVec.eq_of_getLsbD_eq
  intro i hi
  simp only [encodeORRAR, BitVec.getLsbD_and, BitVec.getLsbD_or, placeField_getLsbD, ofInt_toNat, decodeFields,
    BitVec.getLsbD_extractLsb']
  interval_cases i <;> simp

/-- Clearing bit 12 of a word leaves it alone exactly where the bit is 0. -/
theorem and_clearBit12_eq_self_iff (w : Word) : w &&& 0xEFFF#16 = w ↔ w.getLsbD 12 = false := by
  constructor
  · intro h
    rw [← h, BitVec.getLsbD_and]
    simp
  · intro h
    apply BitVec.eq_of_getLsbD_eq
    intro i hi
    rw [BitVec.getLsbD_and]
    interval_cases i <;> simp_all

/-- A slice of a word that holds an argument modulo its width, as a number. -/
theorem toNat_of_extractLsb'_eq {w : Word} {lo width : Nat} {v : Int}
    (h : w.extractLsb' lo width = BitVec.ofInt width v) :
    ((w.toNat / 2 ^ lo % 2 ^ width : Nat) : Int) = v % (2 ^ width : Nat) := by
  have hpos : (0 : Int) < (2 ^ width : Nat) := by positivity
  calc ((w.toNat / 2 ^ lo % 2 ^ width : Nat) : Int)
      = ((w.extractLsb' lo width).toNat : Int) := by rw [BitVec.extractLsb'_toNat, Nat.shiftRight_eq_div_pow]
    _ = ((v % (2 ^ width : Nat)).toNat : Int) := by rw [h, BitVec.toNat_ofInt]
    _ = v % (2 ^ width : Nat) := Int.toNat_of_nonneg (Int.emod_nonneg v hpos.ne')

theorem toNat_encodeORI (op rd im10 : Int) :
    ((encodeORI op rd im10).toNat : Int) = op % 8 + 8 * (rd % 8) + 64 * (im10 % 1024) := by
  obtain ⟨hop, hrd, him⟩ := decodeFields_encodeORI op rd im10
  have hlt := (encodeORI op rd im10).isLt
  have hop := toNat_of_extractLsb'_eq hop
  have hrd := toNat_of_extractLsb'_eq hrd
  have him := toNat_of_extractLsb'_eq him
  omega

theorem toNat_encodeORRI (op rd r1 im7 : Int) :
    ((encodeORRI op rd r1 im7).toNat : Int) = op % 8 + 8 * (rd % 8) + 64 * (r1 % 8) + 512 * (im7 % 128) := by
  obtain ⟨hop, hrd, hr1, _⟩ := decodeFields_encodeORRI op rd r1 im7
  have him : (encodeORRI op rd r1 im7).extractLsb' 9 7 = BitVec.ofInt 7 im7 := by
    simp [encodeORRI, BitVec.extractLsb'_or, extractLsb'_placeField_same, extractLsb'_placeField_disjoint]
  have hlt := (encodeORRI op rd r1 im7).isLt
  have hop := toNat_of_extractLsb'_eq hop
  have hrd := toNat_of_extractLsb'_eq hrd
  have hr1 := toNat_of_extractLsb'_eq hr1
  have him := toNat_of_extractLsb'_eq him
  omega

/-- Bit 12 is the one bit of an ORRAR word that no field covers, and it is 0 (R66). -/
theorem toNat_encodeORRAR (op rd r1 alt r2 : Int) :
    ((encodeORRAR op rd r1 alt r2).toNat : Int) =
      op % 8 + 8 * (rd % 8) + 64 * (r1 % 8) + 512 * (alt % 8) + 8192 * (r2 % 8) := by
  obtain ⟨hop, hrd, hr1, halt, hr2⟩ := decodeFields_encodeORRAR op rd r1 alt r2
  have hbit12 : (encodeORRAR op rd r1 alt r2).extractLsb' 12 1 = BitVec.ofInt 1 0 := by
    simp [encodeORRAR, BitVec.extractLsb'_or, extractLsb'_placeField_disjoint]
  have hlt := (encodeORRAR op rd r1 alt r2).isLt
  have hop := toNat_of_extractLsb'_eq hop
  have hrd := toNat_of_extractLsb'_eq hrd
  have hr1 := toNat_of_extractLsb'_eq hr1
  have halt := toNat_of_extractLsb'_eq halt
  have hr2 := toNat_of_extractLsb'_eq hr2
  have hbit12 := toNat_of_extractLsb'_eq hbit12
  omega

/-- Bit 12 stands in im10 and im7 only. -/
theorem decodeFields_flipBit12 (w : Word) :
    decodeFields (w ^^^ 0x1000#16) =
      { decodeFields w with
        im10 := (decodeFields w).im10 ^^^ 0x040#10, im7 := (decodeFields w).im7 ^^^ 0x0008#16 } := by
  have him7 (v : BitVec 7) : sext16 (v ^^^ 8#7) = sext16 v ^^^ 8#16 := by
    rw [sext16, BitVec.signExtend_xor]
    rfl
  simp [decodeFields, BitVec.extractLsb'_xor, him7]

theorem ofOri_im10_inj {o : OriOp} {rd : Reg} {f g : BitVec 10} (h : Instr.ofOri o rd f = .ofOri o rd g) : f = g := by
  cases o <;> cases h <;> rfl

theorem ofOrri_im7_inj {o : OrriOp} {rd r1 : Reg} {f g : Word} (h : Instr.ofOrri o rd r1 f = .ofOrri o rd r1 g) :
    f = g := by
  cases o <;> cases h <;> rfl

theorem ne_mathValue {v : BitVec 3} {o : Opcode} (h : Config.codeMaps.opcodeOf? v = some o) (ho : o ≠ .math) :
    v ≠ Config.opcodeValue .math := by
  rw [← opcodeOf?_eq_some h]
  exact codeMaps_bijective.1.1.ne ho

/-- A mask with a bit set changes every word it flips. -/
theorem xor_ne_self {n : Nat} {mask : BitVec n} (h : mask ≠ 0#n) (v : BitVec n) : v ^^^ mask ≠ v := by
  intro e
  exact h (by simpa using e)

end Sys2Proof.Laws
end

section
/-! PROOFS. Encoding, from a word to its instruction and back, and what the words are worth (R66, R67, R71, R72). -/

namespace Sys2Proof.Proofs

open Sys2Proof.Machine Sys2Proof.Laws

/-- Settles O4: the fields of a format cover the word, all of it for ORI and ORRI and all but bit 12 for ORRAR. -/
theorem encodeOfDecodeRestoresWord : Obligations.EncodeOfDecodeRestoresWord := by
  intro w i hi
  rcases decodeWith_eq_ok hi with ⟨o, ho, rfl⟩ | ⟨o, ho, rfl⟩ | ⟨a, ho, ha, rfl⟩
  · refine ⟨fun _ => ?_, fun hmath => by simp at hmath⟩
    rw [encode, encodeWith_ofOri, encodeOri, opcodeOf?_eq_some ho, encodeORI_decodeFields]
  · refine ⟨fun _ => ?_, fun hmath => by simp at hmath⟩
    rw [encode, encodeWith_ofOrri, encodeOrri, opcodeOf?_eq_some ho, encodeORRI_decodeFields]
  · refine ⟨fun hmath => by simp at hmath, fun _ => ?_⟩
    rw [encode, encodeWith_ofAlt, encodeMath, opcodeOf?_eq_some ho, altOf?_eq_some ha, encodeORRAR_decodeFields,
      and_clearBit12_eq_self_iff]

/-- Settles O5: the slices of each encoder's word, which together are all of it, hold its arguments. -/
theorem encodersTakeArgumentsModuloWidth : Obligations.EncodersTakeArgumentsModuloWidth :=
  ⟨toNat_encodeORI, toNat_encodeORRI, toNat_encodeORRAR⟩

/-- Settles O6: flipping bit 12 changes im10 and im7, which every format but ORRAR reads one of. -/
theorem onlyMathWordsIgnoreBit12 : Obligations.OnlyMathWordsIgnoreBit12 := by
  intro w
  obtain ⟨i, hi⟩ := decode_total w
  rcases decodeWith_eq_ok hi with ⟨o, ho, rfl⟩ | ⟨o, ho, rfl⟩ | ⟨a, ho, ha, rfl⟩
  · refine iff_of_false (fun h => ?_) (ne_mathValue ho (by simp))
    simp only [decode, decodeWith, Fields.instr, decodeFields_flipBit12, ho, Except.ok.injEq] at h
    exact xor_ne_self (by decide) _ (ofOri_im10_inj h)
  · refine iff_of_false (fun h => ?_) (ne_mathValue ho (by simp))
    simp only [decode, decodeWith, Fields.instr, decodeFields_flipBit12, ho, Except.ok.injEq] at h
    exact xor_ne_self (by decide) _ (ofOrri_im7_inj h)
  · refine iff_of_true ?_ (opcodeOf?_eq_some ho).symm
    simp only [decode, decodeWith, Fields.instr, decodeFields_flipBit12, ho, ha]

/-- Settles O7: the slices im10 and im7 are taken from, the first shifted back into place, the second signed. -/
theorem immediatesAssembleFromWord : Obligations.ImmediatesAssembleFromWord := by
  intro w
  refine ⟨upperImmediate_decodeFields w, ?_⟩
  have hslice : (w.extractLsb' 9 7).toNat = w.toNat / 512 % 128 := by
    rw [BitVec.extractLsb'_toNat, Nat.shiftRight_eq_div_pow]
  have hlt := w.isLt
  calc (decodeFields w).im7.toInt
      = (w.extractLsb' 9 7).toInt := BitVec.toInt_signExtend_of_le (by decide)
    _ = if w.toNat < 32768 then (w.toNat / 512 : Int) else (w.toNat / 512 : Int) - 128 := by
      rw [BitVec.toInt_eq_toNat_cond, hslice]
      split <;> split <;> omega

/-- Settles O8: nine closed instances of the decoder. -/
theorem sampleWordsDecode : Obligations.SampleWordsDecode := by
  unfold Obligations.SampleWordsDecode
  decide

end Sys2Proof.Proofs
end

section
/-! SUPPORT. What an instruction that completes leaves alone, what the end of a step leaves alone, and a step as
both. -/

namespace Sys2Proof.Laws

open Sys2Proof.Machine Sys2Proof.Safety

/-- Everything a completed instruction is bound to leave as it was (R24, R26, R47, R49). -/
structure ExecFrame (i : Instr) (s t : State) : Prop where
  out : t.out = s.out
  fault : t.fault = s.fault
  wf : s.mem.wf → t.mem.wf
  /-- only the destination register changes -/
  regs : ∀ q, i.destination ≠ some q → t.reg q = s.reg q
  /-- only SW changes memory -/
  mem : (∀ rd r1 im7, i ≠ .sw rd r1 im7) → t.mem = s.mem
  /-- SW changes only the cell its effective address names -/
  cells : ∀ a, (∀ rd r1 im7, i = .sw rd r1 im7 → dataCell Config.dataOor (s.displaced r1 im7) ≠ some a) →
    t.mem.read a = s.mem.read a
  /-- only JALR and a taken BEQ jump -/
  pc : (∀ rd r1 im7, i ≠ .jalr rd r1 im7) → (∀ rd r1 im7, i = .beq rd r1 im7 → s.reg rd ≠ s.reg r1) → t.pc = s.pc

theorem exec_frame {i : Instr} {s t : State} (h : exec i s = .next t) : ExecFrame i s t := by
  rcases exec_cases i s with ⟨rd, v, hrd, setsReg⟩ | ⟨rd, r1, im7, rfl, jumps⟩ | ⟨rd, r1, im7, rfl, _⟩ |
    ⟨rd, r1, im7, a, rfl, ha, stores⟩ | ⟨rd, r1, im7, _, _, faults⟩
  · cases setsReg.symm.trans h
    refine ⟨rfl, rfl, id, fun q hq => ?_, fun _ => rfl, fun _ _ => rfl, fun _ _ => rfl⟩
    have hne : q ≠ rd := by rintro rfl; exact hq hrd
    rw [reg_setReg, if_neg hne]
  · cases jumps.symm.trans h
    refine ⟨by simp, by simp, by simp, fun q hq => ?_, by simp, by simp, fun hno _ => absurd rfl (hno rd r1 im7)⟩
    have hne : q ≠ rd := by rintro rfl; exact hq rfl
    rw [setPc_reg, writeLink_reg, if_neg (by simp [hne])]
  · rcases execBeq_cases rd r1 im7 s with ⟨heq, taken⟩ | ⟨_, falls⟩
    · cases taken.symm.trans h
      exact ⟨rfl, rfl, id, fun _ _ => rfl, fun _ => rfl, fun _ _ => rfl, fun _ hne => absurd heq (hne rd r1 im7 rfl)⟩
    · cases falls.symm.trans h
      exact ⟨rfl, rfl, id, fun _ _ => rfl, fun _ => rfl, fun _ _ => rfl, fun _ _ => rfl⟩
  · cases stores.symm.trans h
    refine ⟨rfl, rfl, fun hwf => write_wf hwf _ _, fun _ _ => rfl, fun hno => absurd rfl (hno rd r1 im7),
      fun b hb => ?_, fun _ _ => rfl⟩
    have hne : b ≠ a := by rintro rfl; exact hb rd r1 im7 rfl ha
    rw [store_mem, read_write_other _ _ hne]
  · exact absurd (faults.symm.trans h) (raiseOutOfRange_ne_next s _ t)

theorem endStep_wf {s : State} (h : s.mem.wf) : s.endStep.mem.wf := by
  rw [endStep_mem]
  split
  · exact write_wf h _ _
  · exact h

/-- The port phase writes no cell but the port's (R170). -/
theorem endStep_cellsKept (s : State) : CellsKeptBut [outputPort] s s.endStep := by
  intro a ha
  have hne : a ≠ outputPort := by simpa using ha
  rw [endStep_mem]
  split
  · exact read_write_other _ _ hne
  · rfl

theorem endStep_read_outputPort {s : State} (h : s.mem.wf) : s.endStep.mem.read outputPort = 0#16 := by
  rw [endStep_mem]
  split
  · exact read_write_same h _ _
  case isFalse hzero => exact not_not.mp hzero

theorem endStep_out_cases (s : State) : s.endStep.out = s.out ∨ ∃ b, s.endStep.out = s.out ++ [b] := by
  rw [endStep_out]
  split
  · exact .inr ⟨_, rfl⟩
  · exact .inl rfl

/-- Phase 3 of a word that decodes is its instruction. -/
theorem executeWord_of_decodeWith {m : CodeMaps} {s : State} {i : Instr} (h : decodeWith m s.ir = .ok i) :
    executeWord m s = exec i s := by
  rcases executeWord_cases m s with ⟨j, hj, he⟩ | ⟨e, hj, _⟩
  · cases h.symm.trans hj; exact he
  · cases h.symm.trans hj

/-- A running machine's step is its instruction and the end of the step. -/
theorem step_of_running_decode {s : State} {i : Instr} (hs : s.status = .running)
    (hi : decode (s.mem.read s.pc) = .ok i) : step s = Result.endStep (exec i s.beginStep) := by
  have hexec : executeWord Config.codeMaps s.beginStep = exec i s.beginStep := executeWord_of_decodeWith hi
  rw [step_of_running hs, hexec]

/-- A completed step of a running machine is its instruction, completed, and the end of the step. -/
theorem step_next_of_decode {s t : State} {i : Instr} (hs : s.status = .running)
    (hi : decode (s.mem.read s.pc) = .ok i) (h : step s = .next t) :
    ∃ u, exec i s.beginStep = .next u ∧ t = u.endStep :=
  endStep_eq_next ((step_of_running_decode hs hi).symm.trans h)

/-- The frame of a completed step of a running machine: its instruction's, up to the end of the step. -/
theorem step_next_frame {s t : State} (hs : s.status = .running) (h : step s = .next t) :
    ∃ i u, decode (s.mem.read s.pc) = .ok i ∧ ExecFrame i s.beginStep u ∧ t = u.endStep := by
  obtain ⟨i, hi⟩ := decode_total (s.mem.read s.pc)
  obtain ⟨u, hu, rfl⟩ := step_next_of_decode hs hi h
  exact ⟨i, u, hi, exec_frame hu, rfl⟩

/-- A step that completes was of a machine that had not faulted; a halted one's changes nothing. -/
theorem step_next_cases {s t : State} (h : step s = .next t) : (s.status = .halted ∧ t = s) ∨ s.status = .running := by
  rcases status_cases s with ⟨_, r, hf⟩ | ⟨hhalted, _, _⟩ | ⟨hrunning, _, _⟩
  · rcases cycle_cases Config.codeMaps s with ⟨r, _, hc⟩ | ⟨hnone, _⟩ | ⟨hnone, _⟩
    · cases hc.symm.trans h
    · simp [hf] at hnone
    · simp [hf] at hnone
  · cases (step_of_halted hhalted).symm.trans h
    exact .inl ⟨hhalted, rfl⟩
  · exact .inr hrunning

end Sys2Proof.Laws
end

section
/-! PROOFS. The invariant over a step (R22), and what a step leaves alone (R24, R26, R29, R47, R49). -/

namespace Sys2Proof.Proofs

open Sys2Proof.Machine Sys2Proof.Safety Sys2Proof.Laws

/-- Settles O45: phase 4 forces register 0, and every memory write of phases 3 and 5 keeps the canonical form. -/
theorem stepKeepsInv : Obligations.StepKeepsInv := by
  intro s t hinv h
  rcases step_next_cases h with ⟨_, rfl⟩ | hrunning
  · exact hinv
  · obtain ⟨i, u, _, frame, rfl⟩ := step_next_frame hrunning h
    exact ⟨endStep_reg_zero u, endStep_wf (frame.wf hinv.memory)⟩

/-- Settles O34: the instruction writes its destination, the end of the step register 0. -/
theorem stepWritesOnlyDestination : Obligations.StepWritesOnlyDestination := by
  intro s t i q hs hi h hq hdest
  obtain ⟨u, hu, rfl⟩ := step_next_of_decode hs hi h
  calc u.endStep.reg q = u.reg q := by rw [endStep_reg, if_neg hq]
    _ = s.beginStep.reg q := (exec_frame hu).regs q hdest
    _ = s.reg q := beginStep_reg s q

/-- Settles O35: SW writes the cell it names, the end of the step the port's. -/
theorem stepWritesOnlyStoredCell : Obligations.StepWritesOnlyStoredCell := by
  intro s t i a hs hi h ha hcell
  obtain ⟨u, hu, rfl⟩ := step_next_of_decode hs hi h
  calc u.endStep.mem.read a = u.mem.read a := endStep_cellsKept u a (fun hmem => ha (List.mem_singleton.mp hmem))
    _ = s.beginStep.mem.read a := (exec_frame hu).cells a hcell
    _ = s.mem.read a := by rw [beginStep_mem]

/-- Settles O36: phase 2 advances the pc, and only JALR and a taken BEQ write it after that. -/
theorem pcAdvancesWithoutJump : Obligations.PcAdvancesWithoutJump := by
  intro s t i hs hi h hjalr hbeq
  obtain ⟨u, hu, rfl⟩ := step_next_of_decode hs hi h
  have hpc : u.pc = s.pc + 1 := (exec_frame hu).pc hjalr hbeq
  rw [endStep_pc, hpc, BitVec.toNat_add]
  rfl

/-- Settles O38: only the port phase appends to the output, once, and it clears the port's cell. -/
theorem stepLeavesPortCellClear : Obligations.StepLeavesPortCellClear := by
  intro s t hwf hs h
  obtain ⟨i, u, _, frame, rfl⟩ := step_next_frame hs h
  refine ⟨endStep_read_outputPort (frame.wf hwf), ?_⟩
  have hout : u.out = s.out := frame.out
  rw [← hout]
  exact endStep_out_cases u

end Sys2Proof.Proofs
end

section
/-! SUPPORT. The values and frames of AUIPC, JALR, BEQ, LW, SW and the MATH operations. -/

namespace Sys2Proof.Laws

open Sys2Proof.Machine Sys2Proof.Safety

@[simp] theorem zext16_toNat_addr (a : Addr) : (zext16 a).toNat = a.toNat := by
  have hlt : a.toNat < 32768 := a.isLt
  rw [zext16, BitVec.toNat_setWidth, Nat.mod_eq_of_lt (by omega)]

/-- The link of the last address still fits a word, so it never wraps (R110, D5). -/
theorem link_toNat (s : State) : s.link.toNat = s.pc.toNat + 1 := by
  have hlt : s.pc.toNat < 32768 := s.pc.isLt
  have hone : (1 : Word).toNat = 1 := rfl
  rw [State.link, BitVec.toNat_add, zext16_toNat_addr, hone, Nat.mod_eq_of_lt (by omega)]

/-- A jump target keeps 15 bits of a base plus a signed displacement (R26, D4). -/
theorem setWidth_add_signed_toNat (a b : Word) :
    (((a + b).setWidth 15).toNat : Int) = ((a.toNat : Int) + b.toInt) % 32768 := by
  have h := toNat_add_signed a b
  rw [BitVec.toNat_setWidth]
  omega

theorem exec_auipc (rd : Reg) (im10 : BitVec 10) (s : State) :
    exec (.auipc rd im10) s = .next (s.setReg rd (zext16 s.pc + upperImmediate im10)) := rfl

theorem exec_jalr (rd r1 : Reg) (im7 : Word) (s : State) :
    exec (.jalr rd r1 im7) s = .next ((s.writeLink rd).setPc ((s.writeLink rd).displaced r1 im7)) := rfl

theorem exec_beq (rd r1 : Reg) (im7 : Word) (s : State) : exec (.beq rd r1 im7) s = execBeq rd r1 im7 s := rfl

theorem exec_lw (rd r1 : Reg) (im7 : Word) (s : State) :
    exec (.lw rd r1 im7) s = s.loadWord Config.dataOor rd r1 im7 := rfl

theorem exec_sw (rd r1 : Reg) (im7 : Word) (s : State) :
    exec (.sw rd r1 im7) s = s.storeWord Config.dataOor rd r1 im7 := rfl

section DataAccess

variable {oor : DataOor} {rd r1 : Reg} {im7 : Word} {s : State}

theorem loadWord_of_dataCell {a : Addr} (h : dataCell oor (s.displaced r1 im7) = some a) :
    s.loadWord oor rd r1 im7 = .next (s.setReg rd (s.mem.read a)) := by
  rcases loadWord_cases oor rd r1 im7 s with ⟨b, hb, hload⟩ | ⟨hnone, _⟩
  · cases h.symm.trans hb; exact hload
  · cases h.symm.trans hnone

theorem storeWord_of_dataCell {a : Addr} (h : dataCell oor (s.displaced r1 im7) = some a) :
    s.storeWord oor rd r1 im7 = .next (s.store a (s.reg rd)) := by
  rcases storeWord_cases oor rd r1 im7 s with ⟨b, hb, hstore⟩ | ⟨hnone, _⟩
  · cases h.symm.trans hb; exact hstore
  · cases h.symm.trans hnone

theorem loadWord_of_no_dataCell (h : dataCell oor (s.displaced r1 im7) = none) :
    s.loadWord oor rd r1 im7 = raiseOutOfRange s (s.displaced r1 im7) := by
  rcases loadWord_cases oor rd r1 im7 s with ⟨b, hb, _⟩ | ⟨_, hload⟩
  · cases h.symm.trans hb
  · exact hload

theorem storeWord_of_no_dataCell (h : dataCell oor (s.displaced r1 im7) = none) :
    s.storeWord oor rd r1 im7 = raiseOutOfRange s (s.displaced r1 im7) := by
  rcases storeWord_cases oor rd r1 im7 s with ⟨b, hb, _⟩ | ⟨_, hstore⟩
  · cases h.symm.trans hb
  · exact hstore

end DataAccess

/-- Below 0x8000 the value of `DATA_OOR` does not matter (R45). -/
theorem dataCell_of_lt {ea : Word} (h : ea.toNat < 32768) (oor : DataOor) :
    dataCell oor ea = some (ea.setWidth 15) := by
  rcases dataCell_cases oor ea with ⟨_, hcell⟩ | ⟨hge, _⟩ | ⟨_, _, hcell⟩
  · exact hcell
  · omega
  · exact hcell

theorem dataCell_fault_of_ge {ea : Word} (h : 32768 ≤ ea.toNat) : dataCell .fault ea = none := by
  rcases dataCell_cases .fault ea with ⟨hlt, _⟩ | ⟨_, _, hcell⟩ | ⟨_, hoor, _⟩
  · omega
  · exact hcell
  · cases hoor

/-- Under `wrap` every access names a cell (R45). -/
theorem dataCell_wrap (ea : Word) : dataCell .wrap ea = some (ea.setWidth 15) := by
  rcases dataCell_cases .wrap ea with ⟨_, hcell⟩ | ⟨_, hoor, _⟩ | ⟨_, _, hcell⟩
  · exact hcell
  · cases hoor
  · exact hcell

/-- The machine's `DATA_OOR` is `fault`, so an access names no cell exactly from 0x8000 on (R45, D6). -/
theorem dataCell_eq_none_iff (ea : Word) : dataCell Config.dataOor ea = none ↔ 32768 ≤ ea.toNat := by
  refine ⟨fun h => ?_, dataCell_fault_of_ge⟩
  by_contra hlt
  rw [dataCell_of_lt (by omega)] at h
  cases h

/-- A store as a frame. -/
theorem store_onlyCell (s : State) (a : Addr) (v : Word) : OnlyCell a s (s.store a v) := by
  refine ⟨fun _ _ => rfl, fun b hb => ?_, rfl, rfl, rfl, rfl⟩
  have hne : b ≠ a := by simpa using hb
  rw [store_mem, read_write_other _ _ hne]

/-- A MATH operation is what its function does to words (R140). -/
theorem mathResult_of_toNat {alt : Alt} {f : Nat → Nat → Nat} (g : Word → Word → Word)
    (hexec : ∀ rd r1 r2 s, exec (.ofAlt alt rd r1 r2) s = s.mathOp g rd r1 r2)
    (hg : ∀ a b, (g a b).toNat = f a.toNat b.toNat) : MathResult alt f := by
  refine ⟨decodesAs_math alt, fun s rd r1 r2 => ⟨_, hexec rd r1 r2 s, setReg_onlyRegister s rd _, ?value,
    endStep_reg_zero _⟩⟩
  case value => rw [reg_setReg_same, hg]

end Sys2Proof.Laws
end

section
/-! PROOFS. AUIPC (R101), JALR (R110) and BEQ (R111). -/

namespace Sys2Proof.Proofs

open Sys2Proof.Machine Sys2Proof.Safety Sys2Proof.Laws

/-- Settles O10: AUIPC writes one register, with a 16-bit sum. -/
theorem auipcAddsUpperImmediateToPc : Obligations.AuipcAddsUpperImmediateToPc := by
  refine ⟨decodesAs_ori .auipc, fun s rd im10 => ⟨_, exec_auipc rd im10 s, setReg_onlyRegister s rd _, ?value,
    endStep_reg_zero _⟩⟩
  case value => rw [reg_setReg_same, BitVec.toNat_add, zext16_toNat_addr, upperImmediate_toNat]

/-- Settles O11: the base is read in the state after the link write, where it is the link if r1 is a written rd. -/
theorem jalrLinksThenJumps : Obligations.JalrLinksThenJumps := by
  refine ⟨decodesAs_orri .jalr, fun s rd r1 im7 => ⟨_, exec_jalr rd r1 im7 s, ⟨fun q hq => ?frame, fun a _ => ?cells,
    by simp, by simp, by simp⟩, fun hzero q _ => ?zero, fun hrd => ?link, ?target⟩⟩
  case frame =>
    have hne : q ≠ rd := by simpa using hq
    rw [setPc_reg, writeLink_reg, if_neg (by simp [hne])]
  case cells => rw [setPc_mem, writeLink_mem]
  case zero => rw [setPc_reg, writeLink_reg, if_neg (by simp [hzero])]
  case link => rw [setPc_reg, writeLink_reg, if_pos ⟨rfl, hrd⟩, link_toNat]
  case target =>
    rw [setPc_pc, State.displaced, setWidth_add_signed_toNat, writeLink_reg]
    split
    · rw [link_toNat]; rfl
    · rfl

/-- Settles O12: a taken branch writes the pc only, an untaken one nothing. -/
theorem beqBranchesIfEqual : Obligations.BeqBranchesIfEqual := by
  refine ⟨decodesAs_orri .beq, fun s rd r1 im7 => ?_⟩
  rw [exec_beq]
  rcases execBeq_cases rd r1 im7 s with ⟨heq, taken⟩ | ⟨hne, falls⟩
  · refine ⟨_, taken, ⟨fun _ _ => rfl, fun _ _ => rfl, rfl, rfl, rfl⟩, fun _ => ?_, fun hne => absurd heq hne⟩
    rw [setPc_pc, State.branchTarget, setWidth_add_signed_toNat, zext16_toNat_addr]
  · exact ⟨_, falls, ⟨fun _ _ => rfl, fun _ _ => rfl, rfl, rfl, rfl⟩, fun heq => absurd heq hne, fun _ => rfl⟩

end Sys2Proof.Proofs
end

section
/-! PROOFS. Effective addresses (R45), LW (R120) and SW (R121). -/

namespace Sys2Proof.Proofs

open Sys2Proof.Machine Sys2Proof.Safety Sys2Proof.Laws

/-- Settles O16: below 0x8000 the low 15 bits are the address itself, above it they are 0x8000 less. -/
theorem effectiveAddressNamesCell : Obligations.EffectiveAddressNamesCell := by
  refine ⟨displaced_toNat, fun ea => ⟨fun hlt oor => ⟨_, dataCell_of_lt hlt oor, ?_⟩,
    fun hge => ⟨dataCell_fault_of_ge hge, _, dataCell_wrap ea, ?_⟩⟩⟩
  · rw [BitVec.toNat_setWidth]; omega
  · have hea := ea.isLt
    rw [BitVec.toNat_setWidth]; omega

/-- Settles O14: a load that names a cell is one register write. -/
theorem lwLoadsCell : Obligations.LwLoadsCell :=
  ⟨decodesAs_orri .lw, fun s rd r1 im7 _ ha => ⟨_, (exec_lw rd r1 im7 s).trans (loadWord_of_dataCell ha),
    setReg_onlyRegister s rd _, reg_setReg_same s rd _, endStep_reg_zero _⟩⟩

/-- Settles O15: a store that names a cell is one memory write. -/
theorem swStoresCell : Obligations.SwStoresCell :=
  ⟨decodesAs_orri .sw, fun s rd r1 im7 a hwf ha => ⟨_, (exec_sw rd r1 im7 s).trans (storeWord_of_dataCell ha),
    store_onlyCell s a _, read_write_same hwf a _⟩⟩

/-- Settles O17: from 0x8000 on `fault` names no cell and `wrap` names one, and each access follows. -/
theorem outOfRangeAccessFaults : Obligations.OutOfRangeAccessFaults := by
  intro s rd r1 im7 hge
  have hfault := dataCell_fault_of_ge hge
  obtain ⟨a, hwrap, ha⟩ := (effectiveAddressNamesCell.2 (s.displaced r1 im7)).2 hge |>.2
  exact ⟨(exec_lw rd r1 im7 s).trans (loadWord_of_no_dataCell hfault),
    (exec_sw rd r1 im7 s).trans (storeWord_of_no_dataCell hfault), a, hwrap, ha,
    ⟨_, loadWord_of_dataCell hwrap, setReg_onlyRegister s rd _, reg_setReg_same s rd _, endStep_reg_zero _⟩,
    _, storeWord_of_dataCell hwrap, store_onlyCell s a _, fun hwf => read_write_same hwf a _⟩

end Sys2Proof.Proofs
end

section
/-! PROOFS. The MATH operations (R140 to R148), each by what its function of two words is worth. -/

namespace Sys2Proof.Proofs

open Sys2Proof.Machine Sys2Proof.Laws

/-- Settles O18. -/
theorem addAddsModulo : Obligations.AddAddsModulo :=
  mathResult_of_toNat _ (fun _ _ _ _ => rfl) BitVec.toNat_add

/-- Settles O19. -/
theorem subSubtractsModulo : Obligations.SubSubtractsModulo := by
  refine mathResult_of_toNat _ (fun _ _ _ _ => rfl) fun a b => ?_
  have hb : b.toNat < 65536 := b.isLt
  rw [BitVec.toNat_sub]
  omega

/-- Settles O20: an amount of 16 or more is not masked. -/
theorem sllShiftsLeft : Obligations.SllShiftsLeft := by
  refine mathResult_of_toNat shiftLeft (fun _ _ _ _ => rfl) fun a b => ?_
  simp only [shiftLeft]
  split
  · rw [BitVec.toNat_shiftLeft, Nat.shiftLeft_eq]
  · rfl

/-- Settles O21: an amount of 16 or more is not masked. -/
theorem srlShiftsRight : Obligations.SrlShiftsRight := by
  refine mathResult_of_toNat shiftRight (fun _ _ _ _ => rfl) fun a b => ?_
  simp only [shiftRight]
  split
  · rw [BitVec.toNat_ushiftRight, Nat.shiftRight_eq_div_pow]
  · rfl

/-- Settles O22: a word's complement is 65535 minus it. -/
theorem nandComplementsAnd : Obligations.NandComplementsAnd := by
  refine mathResult_of_toNat (fun a b => ~~~(a &&& b)) (fun _ _ _ _ => rfl) fun a b => ?_
  rw [BitVec.toNat_not, BitVec.toNat_and]

/-- Settles O23. -/
theorem andIsBitwise : Obligations.AndIsBitwise :=
  mathResult_of_toNat _ (fun _ _ _ _ => rfl) BitVec.toNat_and

/-- Settles O24. -/
theorem orIsBitwise : Obligations.OrIsBitwise :=
  mathResult_of_toNat _ (fun _ _ _ _ => rfl) BitVec.toNat_or

/-- Settles O25: the comparison is of the unsigned values. -/
theorem ltComparesUnsigned : Obligations.LtComparesUnsigned := by
  refine mathResult_of_toNat lessThanUnsigned (fun _ _ _ _ => rfl) fun a b => ?_
  simp only [lessThanUnsigned]
  split <;> rfl

end Sys2Proof.Proofs
end

section
/-! SUPPORT. Equal states by their parts, a step that changes nothing, and the host's single step of a fault. -/

namespace Sys2Proof.Laws

open Sys2Proof.Machine Sys2Proof.Safety

/-- A state is its eight registers and its other parts (R32). -/
theorem state_ext {s t : State} (reg : ∀ q, s.reg q = t.reg q) (pc : s.pc = t.pc) (ir : s.ir = t.ir)
    (mem : s.mem = t.mem) (out : s.out = t.out) (fault : s.fault = t.fault) : s = t := by
  obtain ⟨x, _, _, _, _, _⟩ := s
  obtain ⟨y, _, _, _, _, _⟩ := t
  have hx : x = y := Vector.ext fun k hk => reg (BitVec.ofNatLT k hk)
  cases pc; cases ir; cases mem; cases out; cases fault; cases hx
  rfl

/-- Where phase 3 changed at most register 0 and the port's cell is 0, phases 4 and 5 restore the state. -/
theorem endStep_eq_of_quiet {i : Instr} {s u : State} (frame : ExecFrame i s u) (hir : u.ir = s.ir)
    (hreg : ∀ q, q ≠ 0#3 → u.reg q = s.reg q) (hmem : u.mem = s.mem) (hpc : u.pc = s.pc)
    (hzero : s.reg 0#3 = 0#16) (hport : s.mem.read outputPort = 0#16) : u.endStep = s := by
  refine state_ext (fun q => ?_) ?_ ?_ ?_ ?_ ?_
  · rw [endStep_reg]
    split
    case isTrue hq => rw [hq, hzero]
    case isFalse hq => exact hreg q hq
  · rw [endStep_pc, hpc]
  · rw [endStep_ir, hir]
  · rw [endStep_mem, hmem, if_neg (not_not.mpr hport)]
  · rw [endStep_out, hmem, if_neg (not_not.mpr hport), frame.out]
  · rw [endStep_fault, frame.fault]

/-- A branch by 0 goes where the advance went. -/
theorem exec_beq_zero (rd r1 : Reg) (s : State) : exec (.beq rd r1 0#16) s = .next s := by
  have htarget : s.setPc (s.branchTarget 0#16) = s := by
    refine state_ext (fun _ => rfl) ?_ rfl rfl rfl rfl
    rw [setPc_pc, State.branchTarget, zext16, BitVec.add_zero, BitVec.setWidth_setWidth_of_le _ (by decide),
      BitVec.setWidth_eq]
  rw [exec_beq]
  rcases execBeq_cases rd r1 0#16 s with ⟨_, taken⟩ | ⟨_, falls⟩
  · rw [taken, htarget]
  · exact falls

/-- A fault leaves the host its record and nothing else (R28, R162). -/
theorem singleStep_of_step_fault {s : State} {r : Fault} (h : step s = .fault r) :
    s.singleStep = { s with fault := some r } := by
  rcases singleStep_cases s with ⟨t, hnext, _⟩ | ⟨r', hfault, hs⟩ | ⟨r', hrefused, _⟩
  · cases h.symm.trans hnext
  · cases h.symm.trans hfault; exact hs
  · cases h.symm.trans hrefused

/-- A faulted machine answers its fault again (log 15). -/
theorem step_of_fault {s : State} {r : Fault} (h : s.fault = some r) : step s = .fault r := by
  rcases cycle_cases Config.codeMaps s with ⟨r', hr, hc⟩ | ⟨hnone, _⟩ | ⟨hnone, _⟩
  · cases h.symm.trans hr; exact hc
  · cases h.symm.trans hnone
  · cases h.symm.trans hnone

theorem status_of_fault {s : State} {r : Fault} (h : s.fault = some r) : s.status = .faulted := by
  rcases status_cases s with ⟨hs, _⟩ | ⟨_, hnone, _⟩ | ⟨_, hnone, _⟩
  · exact hs
  · cases h.symm.trans hnone
  · cases h.symm.trans hnone

/-- A faulted machine stays as it is (R28). -/
theorem singleStep_of_fault {s : State} {r : Fault} (h : s.fault = some r) : s.singleStep = s := by
  rw [singleStep_of_step_fault (step_of_fault h), ← h]

/-- Only a running machine's step changes anything. -/
theorem singleStep_of_not_running {s : State} (h : s.status ≠ .running) : s.singleStep = s := by
  rcases status_cases s with ⟨_, r, hfault⟩ | ⟨hhalted, _⟩ | ⟨hrunning, _⟩
  · exact singleStep_of_fault hfault
  · exact singleStep_of_step_next (step_of_halted hhalted)
  · exact absurd hrunning h

end Sys2Proof.Laws
end

section
/-! PROOFS. The phases of a step (R205, R207), the output port (R170) and unassigned words (R73). -/

namespace Sys2Proof.Proofs

open Sys2Proof.Machine Sys2Proof.Safety Sys2Proof.Laws

/-- Settles O27: the state phase 3 runs in is the one after fetch and advance, and the two ends of the step are the two
cases of the port phase. -/
theorem stepRunsDecodedInstruction : Obligations.StepRunsDecodedInstruction := by
  refine fun s => ⟨fun r => step_of_fault, fun hf hpc => step_of_halted ((status_eq_halted_iff s).mpr ⟨hf, hpc⟩),
    fun hf hpc i hi _ => ?_⟩
  have hstep : step s = Result.endStep (exec i s.beginStep) :=
    step_of_running_decode ((status_eq_running_iff s).mpr ⟨hf, hpc⟩) hi
  refine ⟨fun u hu => ?next, fun r hr => ?fault, fun r hr => ?refused⟩
  case next =>
    have hend : step s = .next u.forceZero.portPhase := hstep.trans (congrArg Result.endStep hu)
    rcases portPhase_cases u.forceZero with ⟨hzero, hport⟩ | ⟨hnonzero, hport⟩ <;> rw [hport] at hend
    · exact ⟨fun hne => absurd hzero hne, fun _ => hend⟩
    · exact ⟨fun _ => hend, fun hzero => absurd hzero hnonzero⟩
  case fault => exact hstep.trans (congrArg Result.endStep hr)
  case refused => exact hstep.trans (congrArg Result.endStep hr)

/-- Settles O39: phase 4 does not touch the port's cell, and phase 5 no register. -/
theorem forceAndPortPhasesCommute : Obligations.ForceAndPortPhasesCommute := by
  intro s
  refine state_ext (fun q => ?_) ?_ ?_ ?_ ?_ ?_
  · rw [portPhase_reg, forceZero_reg, forceZero_reg, portPhase_reg]
  · rw [portPhase_pc, forceZero_pc, forceZero_pc, portPhase_pc]
  · rw [portPhase_ir, forceZero_ir, forceZero_ir, portPhase_ir]
  · rw [portPhase_mem, forceZero_mem, forceZero_mem, portPhase_mem]
  · rw [portPhase_out, forceZero_mem, forceZero_out, forceZero_out, portPhase_out]
  · rw [portPhase_fault, forceZero_fault, forceZero_fault, portPhase_fault]

/-- Settles O37: the port phase in terms of what phase 3 left, and no port phase where no step completes. -/
theorem portPhaseEmitsLowByte : Obligations.PortPhaseEmitsLowByte := by
  refine ⟨fun s u i hs hwf hi hu => ?_, fun s hs => ?_, fun s r h => ?_⟩
  · have frame := exec_frame hu
    have hout : u.out = s.out := frame.out
    have hclear : u.endStep.mem.read outputPort = 0#16 := endStep_read_outputPort (frame.wf hwf)
    refine ⟨u.endStep, (step_of_running_decode hs hi).trans (congrArg Result.endStep hu), endStep_pc u,
      endStep_cellsKept u, fun (hnonzero : u.mem.read outputPort ≠ 0#16) =>
      ⟨⟨(u.mem.read outputPort).extractLsb' 0 8, ?_, ?_⟩, hclear⟩,
      fun (hzero : u.mem.read outputPort = 0#16) => ⟨?_, hclear⟩⟩
    · rw [endStep_out, if_pos hnonzero, hout]
    · rw [BitVec.extractLsb'_toNat, Nat.shiftRight_zero]; rfl
    · rw [endStep_out, if_neg (not_not.mpr hzero), hout]
  · rw [singleStep_of_not_running hs]
    exact ⟨rfl, rfl⟩
  · rw [singleStep_of_step_fault h]
    exact ⟨rfl, rfl⟩

/-- Settles O29: such a step is fetch, advance and the end of the step. -/
theorem unassignedWordIsNoOp : Obligations.UnassignedWordIsNoOp := by
  intro m s e hs he
  obtain ⟨hf, hpc⟩ := (status_eq_running_iff s).mp hs
  have hnoop : executeWord m s.beginStep = .next s.beginStep := by
    rcases executeWord_cases m s.beginStep with ⟨i, hi, _⟩ | ⟨_, _, hx⟩
    · cases he.symm.trans hi
    · exact hx
  have hcycle : cycle m s = .next s.beginStep.endStep := by
    rcases cycle_cases m s with ⟨r, hr, _⟩ | ⟨_, hzero, _⟩ | ⟨_, _, hc⟩
    · cases hf.symm.trans hr
    · exact absurd hzero hpc
    · rw [hc, hnoop, endStep_next]
  refine ⟨_, hcycle, endStep_pc _, endStep_ir _, endStep_reg _, (endStep_fault _).trans hf,
    endStep_cellsKept s.beginStep, fun hwf => endStep_read_outputPort (s := s.beginStep) hwf, ?_⟩
  rw [endStep_out, ite_not]
  rfl

end Sys2Proof.Proofs
end

section
/-! PROOFS. Faults (R160, R162), steps without effect (R74) and stores the next fetch sees (R51, R221). -/

namespace Sys2Proof.Proofs

open Sys2Proof.Machine Sys2Proof.Safety Sys2Proof.Laws

/-- Settles O30: every word decodes, and of all an instruction can do only an access that names no cell does not
complete. -/
theorem runningStepCompletesOrFaults : Obligations.RunningStepCompletesOrFaults := by
  intro s hs
  obtain ⟨i, hi⟩ := decode_total (s.mem.read s.pc)
  rw [step_of_running_decode hs hi]
  rcases exec_cases i s.beginStep with ⟨rd, v, _, h⟩ | ⟨rd, r1, im7, _, h⟩ | ⟨rd, r1, im7, _, h | h⟩ |
    ⟨rd, r1, im7, a, _, _, h⟩ | ⟨rd, r1, im7, hlwsw, hcell, h⟩
  · exact .inl ⟨_, congrArg Result.endStep h⟩
  · exact .inl ⟨_, congrArg Result.endStep h⟩
  · exact .inl ⟨_, congrArg Result.endStep h⟩
  · exact .inl ⟨_, congrArg Result.endStep h⟩
  · exact .inl ⟨_, congrArg Result.endStep h⟩
  · refine .inr ⟨rd, r1, im7, ?_, (dataCell_eq_none_iff _).mp hcell, ?_⟩
    · rcases hlwsw with rfl | rfl
      · exact .inl hi
      · exact .inr hi
    · rw [h, raiseOutOfRange, beginStep_pc, BitVec.add_sub_cancel]
      rfl

/-- Settles O31: the recorded fault is what every later step finds. -/
theorem faultKeepsStateAndStops : Obligations.FaultKeepsStateAndStops := by
  intro s r _ h
  have hrecord := singleStep_of_step_fault h
  have hfault : s.singleStep.fault = some r := by rw [hrecord]
  exact ⟨hrecord, status_of_fault hfault, fun n => Function.iterate_fixed (singleStep_of_fault hfault) n⟩

/-- Settles O40: the one register such an instruction may write is forced back, and there is nothing to emit. -/
theorem zeroDestinationStepHasNoEffect : Obligations.ZeroDestinationStepHasNoEffect := by
  intro s t i hinv hs hport hi h hkind
  obtain ⟨u, hu, rfl⟩ := step_next_of_decode hs hi h
  have frame := exec_frame hu
  have hquiet : (∀ q, q ≠ 0#3 → u.reg q = s.beginStep.reg q) ∧ u.mem = s.beginStep.mem ∧ u.pc = s.beginStep.pc := by
    rcases hkind with ⟨hdest, hjalr⟩ | ⟨rd, r1, rfl⟩
    · refine ⟨fun q hq => frame.regs q ?_, frame.mem ?_, frame.pc hjalr ?_⟩
      · rw [hdest]; simpa using hq.symm
      · rintro rd r1 im7 rfl; cases hdest
      · rintro rd r1 im7 rfl; cases hdest
    · cases (exec_beq_zero rd r1 s.beginStep).symm.trans hu
      exact ⟨fun _ _ => rfl, rfl, rfl⟩
  obtain ⟨hreg, hmem, hpc⟩ := hquiet
  exact endStep_eq_of_quiet frame (exec_keeps_ir hu) hreg hmem hpc hinv.zero hport

/-- Settles O41: the stored cell reads as stored through the end of the step, and the next fetch reads it. -/
theorem nextFetchSeesStore : Obligations.NextFetchSeesStore := by
  intro s t v rd r1 im7 a hinv hs hi hcell ha h hpc ht hv
  obtain ⟨u, hu, rfl⟩ := step_next_of_decode hs hi h
  have hstore : exec (.sw rd r1 im7) s.beginStep = .next (s.beginStep.store a (s.reg rd)) :=
    (exec_sw rd r1 im7 _).trans (storeWord_of_dataCell hcell)
  cases hstore.symm.trans hu
  obtain ⟨_, hfetched, _⟩ := instructionRegisterHoldsFetchedWord
  rw [hfetched _ v ht hv, hpc, endStep_cellsKept _ a (fun hmem => ha (List.mem_singleton.mp hmem))]
  exact read_write_same hinv.memory a _

end Sys2Proof.Proofs
end

section
/-! SUPPORT. Two states that differ in registers only, and what an instruction carries over from one to the other. -/

namespace Sys2Proof.Laws

open Sys2Proof.Machine

/-- The two states differ in registers only. -/
structure SameButRegs (s u : State) : Prop where
  pc : u.pc = s.pc
  ir : u.ir = s.ir
  mem : u.mem = s.mem
  out : u.out = s.out
  fault : u.fault = s.fault

/-- An instruction that takes `s` to `t` takes `u` to a state that differs from `t` in registers only, and in none that
`s` and `u` agree on or that the instruction writes. -/
def CarriesOver (i : Instr) (s u t : State) : Prop :=
  ∃ v, exec i u = .next v ∧ SameButRegs t v ∧
    ∀ q, (u.reg q = s.reg q ∨ (i.destination = some q ∧ q ≠ 0#3)) → v.reg q = t.reg q

/-- The instruction carries over between any two states that agree on its sources. -/
def ReadsOnlySources (i : Instr) : Prop :=
  ∀ s u t, (∀ q ∈ i.sources, u.reg q = s.reg q) → SameButRegs s u → exec i s = .next t → CarriesOver i s u t

theorem displaced_congr {s u : State} {r1 : Reg} (h : u.reg r1 = s.reg r1) (im7 : Word) :
    u.displaced r1 im7 = s.displaced r1 im7 := by rw [State.displaced, State.displaced, h]

/-- One and the same value written to the destination carries over. -/
theorem carriesOver_setReg {i : Instr} {s u : State} {rd : Reg} {v : Word} (hdest : i.destination = some rd)
    (same : SameButRegs s u) (h : exec i u = .next (u.setReg rd v)) : CarriesOver i s u (s.setReg rd v) := by
  refine ⟨_, h, ⟨same.pc, same.ir, same.mem, same.out, same.fault⟩, fun q hq => ?_⟩
  rw [reg_setReg, reg_setReg]
  split
  case isTrue => rfl
  case isFalse hne =>
    rcases hq with heq | ⟨hq, _⟩
    · exact heq
    · exact absurd (Option.some.inj (hq.symm.trans hdest)) hne

/-- An instruction whose one effect is a register write of a value computed from its sources and the pc. -/
theorem readsOnlySources_of_setReg {i : Instr} {rd : Reg} (value : State → Word) (hdest : i.destination = some rd)
    (hexec : ∀ s, exec i s = .next (s.setReg rd (value s)))
    (hvalue : ∀ s u, (∀ q ∈ i.sources, u.reg q = s.reg q) → u.pc = s.pc → value u = value s) :
    ReadsOnlySources i := by
  intro s u t hsrc same h
  cases (hexec s).symm.trans h
  exact carriesOver_setReg hdest same (by rw [hexec u, hvalue s u hsrc same.pc])

theorem readsOnlySources_mathOp {i : Instr} {rd r1 r2 : Reg} (g : Word → Word → Word)
    (hexec : ∀ s, exec i s = s.mathOp g rd r1 r2) (hdest : i.destination = some rd) (hsrc : i.sources = [r1, r2]) :
    ReadsOnlySources i := by
  refine readsOnlySources_of_setReg (fun s => g (s.reg r1) (s.reg r2)) hdest hexec fun s u h _ => ?_
  show g (u.reg r1) (u.reg r2) = g (s.reg r1) (s.reg r2)
  rw [h r1 (by simp [hsrc]), h r2 (by simp [hsrc])]

theorem readsOnlySources_jalr (rd r1 : Reg) (im7 : Word) : ReadsOnlySources (.jalr rd r1 im7) := by
  intro s u t hsrc same h
  cases (exec_jalr rd r1 im7 s).symm.trans h
  have hlink : u.link = s.link := by rw [State.link, State.link, same.pc]
  have hreg (q : Reg) (hq : u.reg q = s.reg q ∨ (q = rd ∧ rd ≠ 0#3)) :
      (u.writeLink rd).reg q = (s.writeLink rd).reg q := by
    rw [writeLink_reg, writeLink_reg, hlink]
    split
    case isTrue => rfl
    case isFalse hne => exact hq.resolve_right hne
  have hr1 : u.reg r1 = s.reg r1 := hsrc r1 List.mem_cons_self
  refine ⟨_, exec_jalr rd r1 im7 u, ⟨?_, ?_, ?_, ?_, ?_⟩, fun q hq => ?_⟩
  · rw [setPc_pc, setPc_pc, displaced_congr (hreg r1 (.inl hr1))]
  · simpa using same.ir
  · simpa using same.mem
  · simpa using same.out
  · simpa using same.fault
  · refine hreg q (hq.imp_right ?_)
    rintro ⟨⟨⟩, hne⟩
    exact ⟨rfl, hne⟩

theorem readsOnlySources_beq (rd r1 : Reg) (im7 : Word) : ReadsOnlySources (.beq rd r1 im7) := by
  intro s u t hsrc same h
  have hrd : u.reg rd = s.reg rd := hsrc rd (by simp [Instr.sources])
  have hr1 : u.reg r1 = s.reg r1 := hsrc r1 (by simp [Instr.sources])
  have hagree {q : Reg} (hq : u.reg q = s.reg q ∨ ((Instr.beq rd r1 im7).destination = some q ∧ q ≠ 0#3)) :
      u.reg q = s.reg q := hq.resolve_right (by rintro ⟨⟨⟩, _⟩)
  rw [exec_beq] at h
  rw [CarriesOver, exec_beq]
  rcases execBeq_cases rd r1 im7 s with ⟨heq, hs⟩ | ⟨hne, hs⟩
  · cases hs.symm.trans h
    rcases execBeq_cases rd r1 im7 u with ⟨_, hu⟩ | ⟨hne, _⟩
    · have htarget : u.branchTarget im7 = s.branchTarget im7 := by
        rw [State.branchTarget, State.branchTarget, same.pc]
      exact ⟨_, hu, ⟨by rw [setPc_pc, setPc_pc, htarget], same.ir, same.mem, same.out, same.fault⟩, fun _ => hagree⟩
    · exact absurd (by rw [hrd, hr1, heq]) hne
  · cases hs.symm.trans h
    rcases execBeq_cases rd r1 im7 u with ⟨heq, _⟩ | ⟨_, hu⟩
    · exact absurd (by rw [← hrd, ← hr1, heq]) hne
    · exact ⟨_, hu, same, fun _ => hagree⟩

theorem readsOnlySources_lw (rd r1 : Reg) (im7 : Word) : ReadsOnlySources (.lw rd r1 im7) := by
  intro s u t hsrc same h
  have hea : u.displaced r1 im7 = s.displaced r1 im7 := displaced_congr (hsrc r1 List.mem_cons_self) im7
  rcases loadWord_cases Config.dataOor rd r1 im7 s with ⟨a, ha, hs⟩ | ⟨_, hs⟩
  · cases hs.symm.trans h
    refine carriesOver_setReg rfl same ?_
    rw [exec_lw, loadWord_of_dataCell (hea ▸ ha), same.mem]
  · exact absurd (hs.symm.trans h) (raiseOutOfRange_ne_next s _ t)

theorem readsOnlySources_sw (rd r1 : Reg) (im7 : Word) : ReadsOnlySources (.sw rd r1 im7) := by
  intro s u t hsrc same h
  have hrd : u.reg rd = s.reg rd := hsrc rd (by simp [Instr.sources])
  have hea : u.displaced r1 im7 = s.displaced r1 im7 := displaced_congr (hsrc r1 (by simp [Instr.sources])) im7
  rcases storeWord_cases Config.dataOor rd r1 im7 s with ⟨a, ha, hs⟩ | ⟨_, hs⟩
  · cases hs.symm.trans h
    refine ⟨_, (exec_sw rd r1 im7 u).trans (storeWord_of_dataCell (hea ▸ ha)),
      ⟨same.pc, same.ir, ?_, same.out, same.fault⟩, fun q hq => hq.resolve_right (by rintro ⟨⟨⟩, _⟩)⟩
    rw [store_mem, store_mem, same.mem, hrd]
  · exact absurd (hs.symm.trans h) (raiseOutOfRange_ne_next s _ t)

/-- No instruction reads a register that is not among its sources (R24, R25). -/
theorem readsOnlySources (i : Instr) : ReadsOnlySources i := by
  cases i with
  | lui rd im10 => exact readsOnlySources_of_setReg _ rfl (exec_lui rd im10) fun _ _ _ _ => rfl
  | auipc rd im10 => exact readsOnlySources_of_setReg _ rfl (exec_auipc rd im10) fun _ _ _ hpc => by rw [hpc]
  | jalr rd r1 im7 => exact readsOnlySources_jalr rd r1 im7
  | beq rd r1 im7 => exact readsOnlySources_beq rd r1 im7
  | lw rd r1 im7 => exact readsOnlySources_lw rd r1 im7
  | sw rd r1 im7 => exact readsOnlySources_sw rd r1 im7
  | addi rd r1 im7 =>
    exact readsOnlySources_of_setReg _ rfl (exec_addi rd r1 im7) fun _ _ hsrc _ =>
      displaced_congr (hsrc r1 List.mem_cons_self) im7
  | add rd r1 r2 => exact readsOnlySources_mathOp _ (fun _ => rfl) rfl rfl
  | sub rd r1 r2 => exact readsOnlySources_mathOp _ (fun _ => rfl) rfl rfl
  | sll rd r1 r2 => exact readsOnlySources_mathOp _ (fun _ => rfl) rfl rfl
  | srl rd r1 r2 => exact readsOnlySources_mathOp _ (fun _ => rfl) rfl rfl
  | nand rd r1 r2 => exact readsOnlySources_mathOp (fun a b => ~~~(a &&& b)) (fun _ => rfl) rfl rfl
  | and rd r1 r2 => exact readsOnlySources_mathOp _ (fun _ => rfl) rfl rfl
  | or rd r1 r2 => exact readsOnlySources_mathOp _ (fun _ => rfl) rfl rfl
  | lt rd r1 r2 => exact readsOnlySources_mathOp _ (fun _ => rfl) rfl rfl

end Sys2Proof.Laws
end

section
/-! PROOFS. What an instruction depends on (R24, R25). -/

namespace Sys2Proof.Proofs

open Sys2Proof.Machine Sys2Proof.Laws

/-- Settles O26: every instruction carries over between states that agree on its sources. -/
theorem instructionReadsOnlySources : Obligations.InstructionReadsOnlySources := by
  intro i s u t hsrc hpc hir hmem hout hfault h
  obtain ⟨v, hv, same, hreg⟩ := readsOnlySources i s u t hsrc ⟨hpc, hir, hmem, hout, hfault⟩ h
  exact ⟨v, hv, same.pc, same.ir, same.mem, same.out, same.fault, hreg⟩

end Sys2Proof.Proofs
end

section
/-! SUPPORT. Runs (R211) by the status they begin in, and what every single step keeps, every run keeps. -/

namespace Sys2Proof.Laws

open Sys2Proof.Machine Sys2Proof.Safety

theorem runToCompletion_of_not_running {s : State} (h : s.status ≠ .running) (n : Nat) :
    State.runToCompletion n s = some s := by
  cases n <;> exact if_neg h

theorem runToCompletion_zero_of_running {s : State} (h : s.status = .running) : State.runToCompletion 0 s = none :=
  if_pos h

theorem runToCompletion_succ_of_running {s : State} (h : s.status = .running) (n : Nat) :
    State.runToCompletion (n + 1) s = State.runToCompletion n s.singleStep :=
  if_pos h

/-- What every single step keeps holds wherever a run ends. -/
theorem runToCompletion_keeps {P : State → Prop} (hstep : ∀ s, P s → P s.singleStep) {n : Nat} {s t : State}
    (hs : P s) (h : State.runToCompletion n s = some t) : P t := by
  induction n generalizing s with
  | zero =>
    by_cases hrun : s.status = .running
    · rw [runToCompletion_zero_of_running hrun] at h; cases h
    · rw [runToCompletion_of_not_running hrun] at h; cases h; exact hs
  | succ n ih =>
    by_cases hrun : s.status = .running
    · rw [runToCompletion_succ_of_running hrun] at h
      exact ih (hstep s hs) h
    · rw [runToCompletion_of_not_running hrun] at h; cases h; exact hs

/-- What keeps a machine running keeps its run from ending (R213). -/
theorem runToCompletion_eq_none {P : State → Prop} (hrun : ∀ s, P s → s.status = .running)
    (hstep : ∀ s, P s → P s.singleStep) {s : State} (hs : P s) (n : Nat) : State.runToCompletion n s = none := by
  induction n generalizing s with
  | zero => exact runToCompletion_zero_of_running (hrun s hs)
  | succ n ih =>
    rw [runToCompletion_succ_of_running (hrun s hs)]
    exact ih (hstep s hs)

/-- A step that completes takes back no output (R29). -/
theorem step_next_extends_out {s t : State} (h : step s = .next t) : s.out <+: t.out := by
  rcases step_next_cases h with ⟨_, rfl⟩ | hrun
  · exact ⟨[], List.append_nil _⟩
  · obtain ⟨i, u, _, frame, rfl⟩ := step_next_frame hrun h
    have hout : u.out = s.out := frame.out
    rw [← hout]
    rcases endStep_out_cases u with hsame | ⟨b, hmore⟩
    · rw [hsame]
    · exact ⟨[b], hmore.symm⟩

theorem singleStep_extends_out (s : State) : s.out <+: s.singleStep.out := by
  rcases singleStep_cases s with ⟨t, hstep, ht⟩ | ⟨r, _, ht⟩ | ⟨r, _, ht⟩ <;> rw [ht]
  exact step_next_extends_out hstep

theorem load_inv {s : State} (h : Inv s) (ws : List Word) : Inv (s.load ws).2 := by
  rcases load_cases s ws with ⟨_, hload⟩ | ⟨_, hload⟩ <;> rw [hload]
  · exact h
  · exact ⟨h.zero, writeWords_wf h.memory loadAddress ws⟩

theorem load_out (s : State) (ws : List Word) : (s.load ws).2.out = s.out := by
  rcases load_cases s ws with ⟨_, hload⟩ | ⟨_, hload⟩ <;> rw [hload]

/-- An offset of -1 undoes the advance (R111, corner case 5). -/
theorem branchTarget_neg_one (s : State) : (s.beginStep.branchTarget 0xFFFF#16).setWidth 15 = s.pc := by
  apply BitVec.eq_of_toNat_eq
  have hlt : s.pc.toNat < 32768 := s.pc.isLt
  have h := setWidth_add_signed_toNat (zext16 s.beginStep.pc) 0xFFFF#16
  have hneg : (0xFFFF#16).toInt = -1 := by decide
  have hadvance : (s.pc + 1).toNat = (s.pc.toNat + 1) % 32768 := BitVec.toNat_add _ _
  rw [zext16_toNat_addr, beginStep_pc, hneg, hadvance] at h
  rw [State.branchTarget, beginStep_pc]
  omega

end Sys2Proof.Laws
end

section
/-! PROOFS. Reset (R33), runs to completion (R211, R213) and the halted machine's word (R86, R87). -/

namespace Sys2Proof.Proofs

open Sys2Proof.Machine Sys2Proof.Safety Sys2Proof.Laws

/-- Settles O42: reset's eight registers are 0 and the seven draws. -/
theorem resetLeavesStatedValues : Obligations.ResetLeavesStatedValues := by
  refine fun d => ⟨rfl, fun k => ?_, rfl, rfl, rfl, rfl, rfl, rfl⟩
  fin_cases k <;> rfl

/-- Settles O43: every draw of `State.reset` is 0, and nothing is listed in its memory. -/
theorem resetNamesZeroDraws : Obligations.ResetNamesZeroDraws :=
  ⟨by decide, read_nil, rfl⟩

/-- Settles O44. -/
theorem invHoldsAtReset : Obligations.InvHoldsAtReset :=
  ⟨fun _ hwf => ⟨rfl, hwf⟩, rfl, nil_wf⟩

/-- A fault's record is no part of the invariant, so the host's single step keeps it as the step does. -/
theorem singleStep_inv {s : State} (h : Inv s) : Inv s.singleStep := by
  rcases singleStep_cases s with ⟨t, hstep, ht⟩ | ⟨r, _, ht⟩ | ⟨r, _, ht⟩ <;> rw [ht]
  · exact stepKeepsInv s t h hstep
  · exact ⟨h.zero, h.memory⟩
  · exact h

/-- Settles O46: a load keeps the invariant and the output, and so does every single step of the run. -/
theorem runKeepsInvAndOutput : Obligations.RunKeepsInvAndOutput := by
  intro n s t ws hinv h
  refine runToCompletion_keeps (P := fun u => Inv u ∧ s.out <+: u.out) ?_ ⟨load_inv hinv ws, ?_⟩ h
  · rintro u ⟨hu, hout⟩
    exact ⟨singleStep_inv hu, hout.trans (singleStep_extends_out u)⟩
  · rw [load_out]

/-- Settles O47, by induction on the fuel: a run that takes a step ends where the rest of it does. -/
theorem runEndsAtFirstStop : Obligations.RunEndsAtFirstStop := by
  intro n
  induction n with
  | zero =>
    intro s t h
    by_cases hrun : s.status = .running
    · rw [runToCompletion_zero_of_running hrun] at h; cases h
    · rw [runToCompletion_of_not_running hrun] at h; cases h
      exact ⟨⟨0, le_rfl, rfl, hrun, by simp⟩, fun k => runToCompletion_of_not_running hrun _⟩
  | succ n ih =>
    intro s t h
    by_cases hrun : s.status = .running
    · rw [runToCompletion_succ_of_running hrun] at h
      obtain ⟨⟨j, hj, ht, hstop, hbefore⟩, hmore⟩ := ih s.singleStep t h
      refine ⟨⟨j + 1, by omega, ht, hstop, fun i hi => ?_⟩, fun k => ?_⟩
      · cases i with
        | zero => exact hrun
        | succ i => exact hbefore i (by omega)
      · rw [Nat.add_right_comm, runToCompletion_succ_of_running hrun]
        exact hmore k
    · rw [runToCompletion_of_not_running hrun] at h; cases h
      exact ⟨⟨0, by omega, rfl, hrun, by simp⟩, fun k => runToCompletion_of_not_running hrun _⟩

/-- A running machine whose word at pc, outside the output port's cell, branches to itself. -/
structure AtSelfBranch (r : Reg) (s : State) : Prop where
  running : s.status = .running
  pc : s.pc ≠ outputPort
  word : decode (s.mem.read s.pc) = .ok (.beq r r 0xFFFF#16)

/-- The branch is taken back to its own word, which the port phase does not touch. -/
theorem atSelfBranch_singleStep {r : Reg} {s : State} (h : AtSelfBranch r s) : AtSelfBranch r s.singleStep := by
  have hexec : exec (.beq r r 0xFFFF#16) s.beginStep =
      .next (s.beginStep.setPc (s.beginStep.branchTarget 0xFFFF#16)) := by
    rw [exec_beq]
    rcases execBeq_cases r r 0xFFFF#16 s.beginStep with ⟨_, taken⟩ | ⟨hne, _⟩
    · exact taken
    · exact absurd rfl hne
  have hstep : step s = .next (s.beginStep.setPc (s.beginStep.branchTarget 0xFFFF#16)).endStep :=
    (step_of_running_decode h.running h.word).trans (congrArg Result.endStep hexec)
  rw [singleStep_of_step_next hstep]
  have hpc : (s.beginStep.setPc (s.beginStep.branchTarget 0xFFFF#16)).endStep.pc = s.pc := by
    rw [endStep_pc, setPc_pc, branchTarget_neg_one]
  obtain ⟨hfault, hpc0⟩ := (status_eq_running_iff s).mp h.running
  refine ⟨(status_eq_running_iff _).mpr ⟨?_, ?_⟩, ?_, ?_⟩
  · rw [endStep_fault, setPc_fault, beginStep_fault, hfault]
  · rw [hpc]; exact hpc0
  · rw [hpc]; exact h.pc
  · rw [hpc, endStep_cellsKept _ s.pc (fun hmem => h.pc (List.mem_singleton.mp hmem)), setPc_mem,
      beginStep_mem]
    exact h.word

/-- Settles O48: every step of such a machine is back where it was. -/
theorem selfBranchNeverEnds : Obligations.SelfBranchNeverEnds := by
  intro s r hrun hpc hword n
  have hs : AtSelfBranch r s := ⟨hrun, hpc, hword⟩
  exact runToCompletion_eq_none (P := AtSelfBranch r) (fun _ h => h.running) (fun _ => atSelfBranch_singleStep) hs n

/-- Settles O50: `halt` jumps to the address in register 0. -/
theorem nopAndHaltEmitTheirWords : Obligations.NopAndHaltEmitTheirWords := by
  refine ⟨fun m => ⟨rfl, rfl⟩, by decide, by decide, fun s hinv hrun hword => ?_⟩
  have hi : decode (s.mem.read s.pc) = .ok (.jalr 0 0 0) := by rw [hword]; decide
  have hstep : step s = _ :=
    (step_of_running_decode hrun hi).trans (congrArg Result.endStep (exec_jalr 0 0 0 s.beginStep))
  have hreg (q : Reg) : (s.beginStep.writeLink 0).reg q = s.reg q := by
    rw [writeLink_reg, if_neg (by simp), beginStep_reg]
  have hzero : s.reg 0 = 0#16 := hinv.zero
  have hpc : ((s.beginStep.writeLink 0).setPc ((s.beginStep.writeLink 0).displaced 0 0)).endStep.pc = 0#15 := by
    rw [endStep_pc, setPc_pc, State.displaced, hreg, hzero]
    rfl
  obtain ⟨hfault, _⟩ := (status_eq_running_iff s).mp hrun
  refine ⟨_, hstep, hpc, (status_eq_halted_iff _).mpr ⟨?_, hpc⟩, fun q _ => ?_⟩
  · simpa using hfault
  · rw [endStep_reg, setPc_reg, hreg]
    split
    case isTrue hq => rw [hq, hinv.zero]
    case isFalse => rfl

end Sys2Proof.Proofs
end

section
/-! SUPPORT. What a load leaves in each cell (R202), and memory by its entries (log 4). -/

namespace Sys2Proof.Laws

open Sys2Proof.Machine Sys2Proof.Safety

theorem addr_add_ofNat_succ (a : Addr) (i : Nat) :
    a + BitVec.ofNat 15 (i + 1) = a + 1 + BitVec.ofNat 15 i := by
  rw [Nat.add_comm, BitVec.ofNat_add, ← BitVec.add_assoc]
  rfl

/-- The loader's writes leave every cell alone that they do not reach. -/
theorem read_writeWords_other (m : Memory) {a b : Addr} {ws : List Word}
    (h : ∀ i < ws.length, b ≠ a + BitVec.ofNat 15 i) : (m.writeWords a ws).read b = m.read b := by
  induction ws generalizing m a with
  | nil => rfl
  | cons w ws ih =>
    have hhead : b ≠ a := by simpa using h 0 (by simp)
    have htail : ∀ i < ws.length, b ≠ a + 1 + BitVec.ofNat 15 i := fun i hi => by
      rw [← addr_add_ofNat_succ]
      exact h (i + 1) (by simpa using hi)
    rw [Memory.writeWords, ih _ htail, read_write_other _ _ hhead]

/-- As long as the words do not go round the address space, each cell reads as its word. -/
theorem read_writeWords_at {m : Memory} (hwf : m.wf) (a : Addr) {ws : List Word} (hlen : ws.length ≤ 32768) {i : Nat}
    (hi : i < ws.length) : (m.writeWords a ws).read (a + BitVec.ofNat 15 i) = ws[i] := by
  induction ws generalizing m a i with
  | nil => simp at hi
  | cons w ws ih =>
    rw [List.length_cons] at hi hlen
    cases i with
    | zero =>
      have hlater : ∀ j < ws.length, a + BitVec.ofNat 15 0 ≠ a + 1 + BitVec.ofNat 15 j := fun j hj e => by
        rw [← addr_add_ofNat_succ, BitVec.add_right_inj] at e
        have hval := congrArg BitVec.toNat e
        simp only [BitVec.toNat_ofNat] at hval
        omega
      rw [Memory.writeWords, read_writeWords_other _ hlater, BitVec.add_zero, read_write_same hwf]
      rfl
    | succ i =>
      rw [Memory.writeWords, addr_add_ofNat_succ, ih (write_wf hwf a w) (a + 1) (by omega) (by omega)]
      rfl

/-- In canonical form the entries are exactly what the indices read as, where that is not the unlisted byte. -/
theorem mem_iff_byteAt {m : Memory} (h : m.wf) (k : Nat) (v : Byte) :
    (k, v) ∈ m ↔ m.byteAt k = v ∧ v ≠ unlistedByte := by
  obtain ⟨hrising, hlisted⟩ := h
  induction m with
  | nil =>
    have hunlisted : Memory.byteAt [] k = unlistedByte := rfl
    rw [hunlisted]
    exact iff_of_false List.not_mem_nil fun ⟨heq, hne⟩ => hne heq.symm
  | cons c m ih =>
    obtain ⟨k', v'⟩ := c
    obtain ⟨hfirst, hrest⟩ := List.pairwise_cons.mp hrising
    rw [List.mem_cons, Memory.byteAt]
    split
    case isTrue hk =>
      subst hk
      have hnot : (k', v) ∉ m := fun hmem => Nat.lt_irrefl k' (hfirst _ hmem)
      have hv' : v' ≠ unlistedByte := (hlisted _ List.mem_cons_self).2
      constructor
      · rintro (heq | hmem)
        · cases heq; exact ⟨rfl, hv'⟩
        · exact absurd hmem hnot
      · rintro ⟨rfl, _⟩
        exact .inl rfl
    case isFalse hk =>
      have hne : (k, v) ≠ (k', v') := fun e => hk (congrArg Prod.fst e).symm
      rw [or_iff_right hne]
      exact ih hrest fun c hc => hlisted c (List.mem_cons_of_mem _ hc)

/-- Memories in canonical form with the same halves are the same list: same entries, in rising order. -/
theorem eq_of_byteAt_eq {m n : Memory} (hm : m.wf) (hn : n.wf) (h : ∀ k, m.byteAt k = n.byteAt k) : m = n := by
  have hnodup {l : Memory} (hl : l.wf) : l.Nodup := hl.1.imp fun hlt heq => Nat.ne_of_lt hlt (congrArg Prod.fst heq)
  have hperm : m.Perm n := (List.perm_ext_iff_of_nodup (hnodup hm) (hnodup hn)).mpr fun ⟨k, v⟩ => by
    rw [mem_iff_byteAt hm, mem_iff_byteAt hn, h]
  exact hperm.eq_of_pairwise (fun a b _ _ hab hba => absurd hab (Nat.lt_asymm hba)) hm.1 hn.1

/-- An index outside the storage is listed in no memory of canonical form. -/
theorem byteAt_of_ge {m : Memory} (h : m.wf) {k : Nat} (hk : storageSize ≤ k) : m.byteAt k = unlistedByte := by
  by_contra hne
  have hmem := (mem_iff_byteAt h k _).mpr ⟨rfl, hne⟩
  exact absurd (h.2 _ hmem).1 (by simpa using hk)

/-- Every storage index is the low or the high half of some cell. -/
theorem eq_lowIndex_or_highIndex {k : Nat} (hk : k < storageSize) : ∃ a : Addr, k = lowIndex a ∨ k = highIndex a := by
  have hk : k < 65536 := hk
  have ha : (BitVec.ofNat 15 (k / 2)).toNat = k / 2 := by
    rw [BitVec.toNat_ofNat, Nat.mod_eq_of_lt (by omega)]
  refine ⟨BitVec.ofNat 15 (k / 2), ?_⟩
  rw [lowIndex, highIndex, ha]
  omega

/-- Cells that read alike have the same halves. -/
theorem byteAt_eq_of_read_eq {m n : Memory} (hm : m.wf) (hn : n.wf) (h : ∀ a, m.read a = n.read a) (k : Nat) :
    m.byteAt k = n.byteAt k := by
  by_cases hk : k < storageSize
  · obtain ⟨a, rfl | rfl⟩ := eq_lowIndex_or_highIndex hk
    · rw [(byteAt_of_read m a).1, (byteAt_of_read n a).1, h]
    · rw [(byteAt_of_read m a).2, (byteAt_of_read n a).2, h]
  · rw [byteAt_of_ge hm (by omega), byteAt_of_ge hn (by omega)]

/-- The cells below any bound can be given any contents. -/
theorem exists_memory_below (f : Addr → Word) (n : Nat) :
    ∃ m : Memory, m.wf ∧ ∀ a : Addr, a.toNat < n → m.read a = f a := by
  induction n with
  | zero => exact ⟨[], nil_wf, fun _ h => absurd h (Nat.not_lt_zero _)⟩
  | succ n ih =>
    obtain ⟨m, hwf, hbelow⟩ := ih
    refine ⟨m.write (BitVec.ofNat 15 n) (f (BitVec.ofNat 15 n)), write_wf hwf _ _, fun a ha => ?_⟩
    by_cases heq : a = BitVec.ofNat 15 n
    · rw [heq, read_write_same hwf]
    · have hne : a.toNat ≠ n := fun e => heq (by rw [← e, BitVec.ofNat_toNat, BitVec.setWidth_eq])
      rw [read_write_other _ _ heq, hbelow a (by omega)]

end Sys2Proof.Laws
end

section
/-! PROOFS. Loading (R202), placing a word (log 17) and memory's representation (log 4). -/

namespace Sys2Proof.Proofs

open Sys2Proof.Machine Sys2Proof.Safety Sys2Proof.Laws

/-- Settles O49: the loaded cells are consecutive from 0x0010 and end inside the address space. -/
theorem loadPlacesWordsOrFails : Obligations.LoadPlacesWordsOrFails := by
  refine fun s ws hwf => ⟨fun hfits => ?_, fun hlong => ?_⟩
  · rcases load_cases s ws with ⟨hlong, _⟩ | ⟨_, hload⟩
    · omega
    refine ⟨_, hload, fun i hi => ?_, fun a ha => ?_, writeWords_wf hwf _ _, fun _ _ => rfl, rfl, rfl, rfl, rfl⟩
    · rw [BitVec.ofNat_add]
      exact read_writeWords_at hwf loadAddress (by omega) hi
    · refine read_writeWords_other _ fun i hi e => ?_
      have hval : a.toNat = 0x0010 + i := by
        rw [e, BitVec.toNat_add, BitVec.toNat_ofNat]
        show (0x0010 + i % 32768) % 32768 = 0x0010 + i
        omega
      omega
  · rcases load_cases s ws with ⟨_, hload⟩ | ⟨hfits, _⟩
    · exact hload
    · omega

/-- Settles O51: the word is stored at pc, which for a machine that is not running is first the load address. -/
theorem placedWordIsFetchedNext : Obligations.PlacedWordIsFetchedNext := by
  intro s nbits w hwf
  have hload : loadAddress ≠ 0#15 := by decide
  rw [State.withFetchWord, State.placeFetchWord]
  rcases status_cases s with ⟨hs, _⟩ | ⟨hs, hfault, _⟩ | ⟨hs, hfault, hpc⟩ <;> rw [hs]
  · exact ⟨(status_eq_running_iff _).mpr ⟨rfl, hload⟩, read_write_same hwf _ _, fun h => nomatch h⟩
  · exact ⟨(status_eq_running_iff _).mpr ⟨hfault, hload⟩, read_write_same hwf _ _, fun h => nomatch h⟩
  · exact ⟨(status_eq_running_iff _).mpr ⟨hfault, hpc⟩, read_write_same hwf _ _, fun _ => rfl⟩

/-- Settles O52: what the cells read as determines every half, and the halves determine the list. -/
theorem canonicalMemoryIsDetermined : Obligations.CanonicalMemoryIsDetermined := fun _ _ hm hn h =>
  eq_of_byteAt_eq hm hn (byteAt_eq_of_read_eq hm hn h)

/-- Settles O53: the contents written cell by cell. -/
theorem everyContentsHasMemory : Obligations.EveryContentsHasMemory := by
  intro f
  obtain ⟨m, hwf, hbelow⟩ := exists_memory_below f 32768
  exact ⟨m, hwf, fun a => hbelow a a.isLt⟩

end Sys2Proof.Proofs
end

section
/-! SUPPORT. Operand values, and the instructions of `la` and `li` (R85, R89, R90). -/

namespace Sys2Proof.Laws

open Sys2Proof.Machine Sys2Proof.Safety

theorem toNat_ofInt_ten {v : Int} (hlo : 0 ≤ v) (hhi : v ≤ 1023) : ((BitVec.ofInt 10 v).toNat : Int) = v := by
  rw [BitVec.toNat_ofInt]
  omega

theorem toNat_literalPattern (v : Int) : ((literalPattern v).toNat : Int) = v % 65536 := by
  rw [literalPattern, BitVec.toNat_ofInt]
  omega

theorem toInt_literalPattern {v : Int} (hlo : -64 ≤ v) (hhi : v ≤ 63) : (literalPattern v).toInt = v := by
  rw [literalPattern, BitVec.toInt_ofInt]
  exact Int.bmod_eq_of_le (by omega) (by omega)

/-- A word that is small as a number is an im7 in range. -/
theorem im7InRange_of_lt {v : Word} (h : v.toNat < 64) : im7InRange v = true := by
  rw [im7InRange_iff, BitVec.toInt_eq_toNat_cond]
  split <;> omega

theorem toNat_zext16_low (v : Word) : (zext16 (v.extractLsb' 0 6)).toNat = v.toNat % 64 := by
  rw [zext16, BitVec.toNat_setWidth, BitVec.extractLsb'_toNat, Nat.shiftRight_zero]
  omega

/-- The two immediates of the long form make up the value (R89). -/
theorem upperImmediate_add_low (v : Word) :
    upperImmediate (v.extractLsb' 6 10) + zext16 (v.extractLsb' 0 6) = v := by
  apply BitVec.eq_of_toNat_eq
  have hlt : v.toNat < 65536 := v.isLt
  rw [BitVec.toNat_add, upperImmediate_toNat, toNat_zext16_low, BitVec.extractLsb'_toNat, Nat.shiftRight_eq_div_pow]
  omega

theorem loadShort_wellFormed (rd : Reg) {v : Word} (h : v.toNat < 64) :
    ∀ i ∈ loadShort rd v, i.wellFormed = true := by
  simpa [loadShort, Instr.wellFormed] using im7InRange_of_lt h

theorem loadLong_wellFormed (rd : Reg) (v : Word) : ∀ i ∈ loadLong rd v, i.wellFormed = true := by
  have hlow : im7InRange (zext16 (v.extractLsb' 0 6)) = true :=
    im7InRange_of_lt (by rw [toNat_zext16_low]; exact Nat.mod_lt _ (by decide))
  simpa [loadLong, Instr.wellFormed] using hlow

theorem loadLiteral_of_lt (rd : Reg) {v : Word} (h : v.toNat < 64) : loadLiteral rd v = loadShort rd v := if_pos h
theorem loadLiteral_of_ge (rd : Reg) {v : Word} (h : ¬ v.toNat < 64) : loadLiteral rd v = loadLong rd v := if_neg h
theorem loadLabel_of_lt (rd : Reg) {a : Nat} (h : a < 64) : loadLabel rd a = loadShort rd (BitVec.ofNat 16 a) :=
  if_pos h
theorem loadLabel_of_ge (rd : Reg) {a : Nat} (h : ¬ a < 64) : loadLabel rd a = loadLong rd (BitVec.ofNat 16 a) :=
  if_neg h

theorem loadLiteral_wellFormed (rd : Reg) (v : Word) : ∀ i ∈ loadLiteral rd v, i.wellFormed = true := by
  by_cases h : v.toNat < 64
  · rw [loadLiteral_of_lt rd h]; exact loadShort_wellFormed rd h
  · rw [loadLiteral_of_ge rd h]; exact loadLong_wellFormed rd v

theorem loadLabel_wellFormed (rd : Reg) (a : Nat) : ∀ i ∈ loadLabel rd a, i.wellFormed = true := by
  by_cases h : a < 64
  · rw [loadLabel_of_lt rd h]
    exact loadShort_wellFormed rd (by rw [BitVec.toNat_ofNat]; omega)
  · rw [loadLabel_of_ge rd h]; exact loadLong_wellFormed rd _

theorem loadLiteral_length (rd : Reg) (v : Word) : (loadLiteral rd v).length = if v.toNat < 64 then 1 else 2 := by
  split
  case isTrue h => rw [loadLiteral_of_lt rd h]; rfl
  case isFalse h => rw [loadLiteral_of_ge rd h]; rfl

theorem loadLabel_length (rd : Reg) (a : Nat) : (loadLabel rd a).length = if a < 64 then 1 else 2 := by
  split
  case isTrue h => rw [loadLabel_of_lt rd h]; rfl
  case isFalse h => rw [loadLabel_of_ge rd h]; rfl

/-- `la` of a 16-bit address is `li` of it. -/
theorem loadLabel_eq_loadLiteral (rd : Reg) {a : Nat} (h : a < 65536) :
    loadLabel rd a = loadLiteral rd (BitVec.ofNat 16 a) := by
  have hval : (BitVec.ofNat 16 a).toNat = a := by rw [BitVec.toNat_ofNat, Nat.mod_eq_of_lt (by omega)]
  by_cases hshort : a < 64
  · rw [loadLabel_of_lt rd hshort, loadLiteral_of_lt rd (by omega)]
  · rw [loadLabel_of_ge rd hshort, loadLiteral_of_ge rd (by omega)]

theorem onlyRegister_trans {rd : Reg} {s t u : State} (hst : OnlyRegister rd s t) (htu : OnlyRegister rd t u) :
    OnlyRegister rd s u := by
  obtain ⟨regs, cells, pc, ir, out, fault⟩ := hst
  obtain ⟨regs', cells', pc', ir', out', fault'⟩ := htu
  exact ⟨fun q hq => (regs' q hq).trans (regs q hq), fun a ha => (cells' a ha).trans (cells a ha), pc'.trans pc,
    ir'.trans ir, out'.trans out, fault'.trans fault⟩

/-- Run, the instructions of `li` leave the value in their register (R89, R90). -/
theorem execSeq_loadLiteral (s : State) (rd : Reg) (v : Word) (hzero : s.reg 0#3 = 0#16) :
    ∃ t, execSeq (loadLiteral rd v) s = .next t ∧ OnlyRegister rd s t ∧ t.reg rd = v := by
  by_cases h : v.toNat < 64
  · refine ⟨s.setReg rd (s.displaced 0 v), ?_, setReg_onlyRegister s rd _, ?_⟩
    · rw [loadLiteral_of_lt rd h]; rfl
    · have hreg : s.reg 0 = 0#16 := hzero
      rw [reg_setReg_same, State.displaced, hreg, BitVec.zero_add]
  · have hupper := setReg_onlyRegister s rd (upperImmediate (v.extractLsb' 6 10))
    refine ⟨(s.setReg rd (upperImmediate (v.extractLsb' 6 10))).setReg rd
      ((s.setReg rd (upperImmediate (v.extractLsb' 6 10))).displaced rd (zext16 (v.extractLsb' 0 6))), ?_,
      onlyRegister_trans hupper (setReg_onlyRegister _ rd _), ?_⟩
    · rw [loadLiteral_of_ge rd h]; rfl
    · rw [reg_setReg_same, State.displaced, reg_setReg_same, upperImmediate_add_low]

/-- The words of well-formed instructions decode to them, one by one. -/
theorem map_decodeWith_encodeWith {m : CodeMaps} (hm : m.Bijective) {is : List Instr}
    (h : ∀ i ∈ is, i.wellFormed = true) : (is.map (encodeWith m)).map (decodeWith m) = is.map .ok := by
  rw [List.map_map]
  exact List.map_congr_left fun i hi => Proofs.decodeOfEncodeIsIdentity m i hm (h i hi)

/-- A literal after minus signs, taken with a sign already pending. -/
theorem takeNumber_replicate_minus (negative : Bool) (k : Nat) (radix : Radix) (ds : List Nat) (ts : List Token) :
    takeNumber negative (List.replicate k .minus ++ .number radix ds :: ts) =
      .ok ((if negative then -1 else 1) * (-1) ^ k * (literalValue radix ds : Int), ts) := by
  induction k generalizing negative with
  | zero => cases negative <;> simp [takeNumber]
  | succ k ih =>
    rw [List.replicate_succ, List.cons_append, takeNumber, ih]
    cases negative <;> simp [pow_succ]

end Sys2Proof.Laws
end

section
/-! PROOFS. The assembler's operands and directives (R82, R84, R85, R88 to R90). -/

namespace Sys2Proof.Proofs

open Sys2Proof.Machine Sys2Proof.Safety Sys2Proof.Laws

/-- Settles O54: each line's word is its instruction's, whose field holds the value. -/
theorem operandsLandInFields : Obligations.OperandsLandInFields := by
  intro m t hm
  refine ⟨fun op rd v => ⟨?oriFits, fun h => if_neg (by omega)⟩,
    fun op rd r1 v => ⟨?orriFits, fun h => if_neg (by omega)⟩,
    fun alt rd r1 r2 => ⟨_, rfl, ?math⟩,
    fun rd v => ⟨fun h => ⟨⟨_, if_pos h, toNat_literalPattern v⟩, _, if_pos h⟩,
      fun h => ⟨if_neg (by omega), if_neg (by omega)⟩⟩⟩
  case oriFits =>
    rintro ⟨hlo, hhi⟩
    refine ⟨_, _, if_pos ⟨hlo, hhi⟩, ?_, toNat_ofInt_ten hlo hhi⟩
    rw [encodeWith_ofOri, decodeWith_encodeOri hm]
  case orriFits =>
    rintro ⟨hlo, hhi⟩
    have hval := toInt_literalPattern hlo hhi
    have hrange : im7InRange (literalPattern v) = true := (im7InRange_iff _).mpr (by omega)
    refine ⟨_, _, if_pos ⟨hlo, hhi⟩, ?_, hval⟩
    rw [encodeWith_ofOrri, decodeWith_encodeOrri hm op rd r1 hrange]
  case math => rw [encodeWith_ofAlt, decodeWith_encodeMath hm]

/-- Settles O55: the expansion is of well-formed instructions, and a `la` of a 16-bit address is the `li` of it. -/
theorem loadDirectivesLeaveValue : Obligations.LoadDirectivesLeaveValue := by
  refine ⟨fun m t rd hm => ⟨fun v hlo hhi => ?li, fun name a ha => ?la⟩, fun s rd _ hzero => ⟨fun v => ?literal,
    fun a ha => ?label⟩⟩
  case li =>
    exact ⟨_, _, toNat_literalPattern v, if_pos ⟨hlo, hhi⟩, map_decodeWith_encodeWith hm (loadLiteral_wellFormed rd _)⟩
  case la =>
    refine ⟨(loadLabel rd a).map (encodeWith m), ?_, map_decodeWith_encodeWith hm (loadLabel_wellFormed rd a)⟩
    simp only [Line.words, ha]
  case literal => exact ⟨loadLiteral_wellFormed rd v, loadLiteral_length rd v, execSeq_loadLiteral s rd v hzero⟩
  case label =>
    obtain ⟨t, hrun, honly, hval⟩ := execSeq_loadLiteral s rd (BitVec.ofNat 16 a) hzero
    rw [← loadLabel_eq_loadLiteral rd ha] at hrun
    refine ⟨loadLabel_wellFormed rd a, loadLabel_length rd a, t, hrun, honly, ?_⟩
    rw [hval, BitVec.toNat_ofNat, Nat.mod_eq_of_lt (by omega)]

/-- Settles O59, which begins with no sign pending. -/
theorem minusSignsToggle : Obligations.MinusSignsToggle := by
  intro k radix ds ts
  rw [takeNumber_replicate_minus]
  simp

end Sys2Proof.Proofs
end

section
/-! SUPPORT. Label tables, layout passes and the sizing loop (R83, R91). -/

namespace Sys2Proof.Laws

open Sys2Proof.Machine

theorem address?_cons (name' : String) (a : Nat) (t : LabelTable) (name : String) :
    LabelTable.address? ((name', a) :: t) name = if name' = name then some a else t.address? name := by
  rw [LabelTable.address?]
  by_cases h : name' = name
  · rw [List.find?_cons_of_pos (by simp [h]), if_pos h]; rfl
  · rw [List.find?_cons_of_neg (by simp [h]), if_neg h]; rfl

theorem layout_label_cons (t : LabelTable) (a : Nat) (name : String) (ls : List Line) :
    layout t a (.label name :: ls) = (name, a) :: layout t a ls := rfl

theorem layout_cons_of_not_label (t : LabelTable) (a : Nat) {l : Line} (h : ∀ name, l ≠ .label name)
    (ls : List Line) : layout t a (l :: ls) = layout t (a + l.size t) ls := by
  cases l with
  | label name => exact absurd rfl (h name)
  | ori | orri | math | nop | halt | word | la | li => rfl

/-- A line is a label definition or it is not. -/
theorem label_cases (l : Line) : (∃ name, l = .label name) ∨ ∀ name, l ≠ .label name := by
  by_cases h : ∃ name, l = .label name
  · exact .inl h
  · exact .inr fun name e => h ⟨name, e⟩

/-- The table has no label that no line defines. -/
theorem address?_layout_of_undefined (t : LabelTable) (a : Nat) {ls : List Line} {name : String}
    (h : .label name ∉ ls) : (layout t a ls).address? name = none := by
  induction ls generalizing a with
  | nil => rfl
  | cons l ls ih =>
    obtain ⟨hhead, htail⟩ := not_or.mp (mt List.mem_cons.mpr h)
    rcases label_cases l with ⟨name', rfl⟩ | hl
    · have hne : name' ≠ name := fun e => hhead (by rw [e])
      rw [layout_label_cons, address?_cons, if_neg hne, ih a htail]
    · rw [layout_cons_of_not_label t a hl, ih _ htail]

/-- The first definition of a label is bound to the address after the words of the lines before it (R83). -/
theorem address?_layout (t : LabelTable) (a : Nat) {pre : List Line} {name : String} (h : .label name ∉ pre)
    (post : List Line) :
    (layout t a (pre ++ .label name :: post)).address? name = some (a + (pre.map (Line.size t)).sum) := by
  induction pre generalizing a with
  | nil => rw [List.nil_append, layout_label_cons, address?_cons, if_pos rfl]; rfl
  | cons l pre ih =>
    obtain ⟨hhead, htail⟩ := not_or.mp (mt List.mem_cons.mpr h)
    rw [List.cons_append, List.map_cons, List.sum_cons]
    rcases label_cases l with ⟨name', rfl⟩ | hl
    · have hne : name' ≠ name := fun e => hhead (by rw [e])
      have hsize : (Line.label name').size t = 0 := rfl
      rw [layout_label_cons, address?_cons, if_neg hne, ih a htail, hsize, Nat.zero_add]
    · rw [layout_cons_of_not_label t a hl, ih _ htail, Nat.add_assoc]

/-- The loop ends at a table that one more pass reproduces (R91). -/
theorem layout_of_settle {ls : List Line} {fuel : Nat} {t t' : LabelTable} (h : settle ls fuel t = some t') :
    layout t' loadAddress.toNat ls = t' := by
  induction fuel generalizing t with
  | zero => cases h
  | succ fuel ih =>
    rw [settle] at h
    split at h
    case isTrue hfixed => cases h; exact hfixed
    case isFalse => exact ih h

/-! ### The sizing loop settles: passes only move labels up, and each that moves one makes the program longer -/

/-- No label is lower in the second table; one a table lacks counts as the placeholder address 0. -/
def TableLe (t t' : LabelTable) : Prop :=
  ∀ name, (t.address? name).getD 0 ≤ (t'.address? name).getD 0

theorem nil_tableLe (t : LabelTable) : TableLe [] t := fun _ => Nat.zero_le _

theorem size_mono {t t' : LabelTable} (h : TableLe t t') (l : Line) : l.size t ≤ l.size t' := by
  cases l with
  | la rd name =>
    have haddress := h name
    simp only [Line.size]
    split <;> split <;> omega
  | label | ori | orri | math | nop | halt | word | li => exact le_rfl

/-- A line has two forms at most, one word apart. -/
theorem size_le_size_add_one (t t' : LabelTable) (l : Line) : l.size t ≤ l.size t' + 1 := by
  cases l with
  | la rd name =>
    simp only [Line.size]
    split <;> split <;> omega
  | label | ori | orri | math | nop | halt | word | li => exact Nat.le_succ _

theorem layout_mono {t t' : LabelTable} (h : TableLe t t') (ls : List Line) {a a' : Nat} (ha : a ≤ a') :
    TableLe (layout t a ls) (layout t' a' ls) := by
  induction ls generalizing a a' with
  | nil => exact fun _ => le_rfl
  | cons l ls ih =>
    rcases label_cases l with ⟨name', rfl⟩ | hl
    · intro name
      rw [layout_label_cons, layout_label_cons, address?_cons, address?_cons]
      split
      · exact ha
      · exact ih ha name
    · rw [layout_cons_of_not_label t a hl, layout_cons_of_not_label t' a' hl]
      exact ih (Nat.add_le_add ha (size_mono h l))

/-- The number of words a program has under a table. -/
def totalSize (t : LabelTable) (ls : List Line) : Nat := (ls.map (Line.size t)).sum

theorem totalSize_mono {t t' : LabelTable} (h : TableLe t t') (ls : List Line) : totalSize t ls ≤ totalSize t' ls :=
  List.sum_le_sum fun l _ => size_mono h l

theorem totalSize_le (t t' : LabelTable) (ls : List Line) : totalSize t ls ≤ totalSize t' ls + ls.length := by
  induction ls with
  | nil => exact le_rfl
  | cons l ls ih =>
    have hl := size_le_size_add_one t t' l
    simp only [totalSize, List.map_cons, List.sum_cons, List.length_cons] at ih ⊢
    omega

/-- Where no line grows, the next pass moves no label. -/
theorem layout_congr_of_totalSize_le {t t' : LabelTable} (h : TableLe t t') {ls : List Line}
    (hsize : totalSize t' ls ≤ totalSize t ls) (a : Nat) : layout t a ls = layout t' a ls := by
  induction ls generalizing a with
  | nil => rfl
  | cons l ls ih =>
    have hhead := size_mono h l
    have htail := totalSize_mono h ls
    simp only [totalSize, List.map_cons, List.sum_cons] at hsize htail ih
    have ih := ih (by omega)
    rcases label_cases l with ⟨name, rfl⟩ | hl
    · rw [layout_label_cons, layout_label_cons, ih]
    · have heq : l.size t = l.size t' := by omega
      rw [layout_cons_of_not_label t a hl, layout_cons_of_not_label t' a hl, heq, ih]

/-- From the pass after a table that it only moves up, the loop settles within as many passes as the program can still
grow by words. -/
theorem settle_isSome {ls : List Line} {fuel : Nat} {t : LabelTable} (hle : TableLe t (layout t loadAddress.toNat ls))
    (hfuel : totalSize [] ls + ls.length < totalSize t ls + fuel) :
    ∃ t', settle ls fuel (layout t loadAddress.toNat ls) = some t' := by
  induction fuel generalizing t with
  | zero =>
    have hbound := totalSize_le t [] ls
    omega
  | succ fuel ih =>
    rw [settle]
    split
    case isTrue => exact ⟨_, rfl⟩
    case isFalse hmoved =>
      have hgrows : totalSize t ls < totalSize (layout t loadAddress.toNat ls) ls := by
        by_contra hsize
        exact hmoved (layout_congr_of_totalSize_le hle (by omega) _).symm
      exact ih (layout_mono hle ls le_rfl) (by omega)

end Sys2Proof.Laws
end

section
/-! SUPPORT. Duplicate labels, and the words of a program's lines (R83, R84, R92). -/

namespace Sys2Proof.Laws

open Sys2Proof.Machine

theorem checkLabels_cons_of_not_label (seen : List (String × Nat)) (k : Nat) {l : Line} (h : ∀ name, l ≠ .label name)
    (ls : List Line) : checkLabels seen k (l :: ls) = checkLabels seen (k + 1) ls := by
  cases l with
  | label name => exact absurd rfl (h name)
  | ori | orri | math | nop | halt | word | la | li => rfl

/-- All the check of a label definition can do (R83): report it with an earlier definition of its name, or go on where
there is none. -/
theorem checkLabels_label_cases (seen : List (String × Nat)) (k : Nat) (name : String) (ls : List Line) :
    (∃ i, (name, i) ∈ seen ∧ checkLabels seen k (.label name :: ls) = .error (.duplicateLabel name i k)) ∨
    ((∀ e ∈ seen, e.1 ≠ name) ∧
      checkLabels seen k (.label name :: ls) = checkLabels ((name, k) :: seen) (k + 1) ls) := by
  rw [checkLabels]
  cases hfind : seen.find? (fun e => e.1 == name) with
  | some e =>
    obtain ⟨name', i⟩ := e
    have hname : name' = name := by simpa using List.find?_some hfind
    subst hname
    exact .inl ⟨i, List.mem_of_find?_eq_some hfind, rfl⟩
  | none =>
    have hnew : ∀ e ∈ seen, e.1 ≠ name := by simpa using List.find?_eq_none.mp hfind
    exact .inr ⟨hnew, rfl⟩

/-- Where the check passes, a label's definition comes after no other of its name. -/
theorem label_not_mem_of_checkLabels {seen : List (String × Nat)} {k : Nat} {pre post : List Line} {name : String}
    (h : checkLabels seen k (pre ++ .label name :: post) = .ok ()) :
    .label name ∉ pre ∧ ∀ e ∈ seen, e.1 ≠ name := by
  induction pre generalizing seen k with
  | nil =>
    rcases checkLabels_label_cases seen k name post with ⟨i, _, herror⟩ | ⟨hnew, _⟩
    · cases herror.symm.trans h
    · exact ⟨List.not_mem_nil, hnew⟩
  | cons l pre ih =>
    rw [List.cons_append] at h
    rcases label_cases l with ⟨name', rfl⟩ | hl
    · rcases checkLabels_label_cases seen k name' (pre ++ .label name :: post) with ⟨i, _, herror⟩ | ⟨_, hrest⟩
      · cases herror.symm.trans h
      · obtain ⟨hpre, hseen⟩ := ih (hrest.symm.trans h)
        have hne : name' ≠ name := hseen (name', k) List.mem_cons_self
        refine ⟨fun hmem => ?_, fun e he => hseen e (List.mem_cons_of_mem _ he)⟩
        rcases List.mem_cons.mp hmem with heq | hmem
        · cases heq; exact hne rfl
        · exact hpre hmem
    · rw [checkLabels_cons_of_not_label seen k hl] at h
      obtain ⟨hpre, hseen⟩ := ih h
      exact ⟨fun hmem => (List.mem_cons.mp hmem).elim (fun heq => hl name heq.symm) hpre, hseen⟩

/-- The labels noted are lines' labels at their positions. -/
def SeenIn (all : List Line) (seen : List (String × Nat)) (k : Nat) : Prop :=
  ∀ name i, (name, i) ∈ seen → i < k ∧ all[i]? = some (.label name)

theorem nothing_seenIn (all : List Line) : SeenIn all [] 0 := fun _ _ hmem => absurd hmem List.not_mem_nil

/-- What the check reports are the positions of two definitions of one label, the earlier first. -/
theorem checkLabels_error {all ls : List Line} {seen : List (String × Nat)} {k : Nat} (hseen : SeenIn all seen k)
    (hsuffix : all.drop k = ls) {e : AsmError} (h : checkLabels seen k ls = .error e) :
    ∃ name i j, e = .duplicateLabel name i j ∧ i < j ∧ all[i]? = some (.label name) ∧
      all[j]? = some (.label name) := by
  induction ls generalizing seen k with
  | nil => cases h
  | cons l ls ih =>
    have hhere : all[k]? = some l := by
      rw [← List.head?_drop, hsuffix, List.head?_cons]
    have hnext : all.drop (k + 1) = ls := by
      rw [← List.tail_drop, hsuffix, List.tail_cons]
    rcases label_cases l with ⟨name, rfl⟩ | hl
    · rcases checkLabels_label_cases seen k name ls with ⟨i, hi, herror⟩ | ⟨_, hrest⟩
      · cases herror.symm.trans h
        obtain ⟨hlt, hfirst⟩ := hseen name i hi
        exact ⟨name, i, k, rfl, hlt, hfirst, hhere⟩
      · refine ih (fun name' i hmem => ?_) hnext (hrest.symm.trans h)
        rcases List.mem_cons.mp hmem with heq | hmem
        · cases heq; exact ⟨Nat.lt_succ_self k, hhere⟩
        · obtain ⟨hlt, hfirst⟩ := hseen name' i hmem
          exact ⟨by omega, hfirst⟩
    · refine ih (fun name' i hmem => ?_) hnext ((checkLabels_cons_of_not_label seen k hl ls).symm.trans h)
      obtain ⟨hlt, hfirst⟩ := hseen name' i hmem
      exact ⟨by omega, hfirst⟩

/-- Emission that succeeds is every line's words, in order (R92). -/
theorem emit_eq_ok {m : CodeMaps} {t : LabelTable} {ls : List Line} {ws : List Word} (h : emit m t ls = .ok ws) :
    ∃ chunks : List (List Word), ws = chunks.flatten ∧
      List.Forall₂ (fun l c => Line.words m t l = .ok c) ls chunks := by
  induction ls generalizing ws with
  | nil => cases h; exact ⟨[], rfl, .nil⟩
  | cons l ls ih =>
    rw [emit] at h
    cases hl : Line.words m t l with
    | error e => rw [hl] at h; cases h
    | ok c =>
      cases hls : emit m t ls with
      | error e => rw [hl, hls] at h; cases h
      | ok rest =>
        rw [hl, hls] at h
        cases h
        obtain ⟨chunks, rfl, hchunks⟩ := ih hls
        exact ⟨c :: chunks, rfl, .cons hl hchunks⟩

theorem words_of_emit {m : CodeMaps} {t : LabelTable} {ls : List Line} {ws : List Word} (h : emit m t ls = .ok ws)
    {l : Line} (hl : l ∈ ls) : ∃ c, Line.words m t l = .ok c := by
  obtain ⟨chunks, -, hchunks⟩ := emit_eq_ok h
  clear h
  induction hchunks with
  | nil => cases hl
  | cons hhead _ ih =>
    rcases List.mem_cons.mp hl with rfl | htail
    · exact ⟨_, hhead⟩
    · exact ih htail

/-- A program that assembles passed the label check, settled and was emitted (R91, R92). -/
theorem assembleWith_eq_ok {m : CodeMaps} {ls : List Line} {ws : List Word} (h : assembleWith m ls = .ok ws) :
    checkLabels [] 0 ls = .ok () ∧ ∃ t, labelAddresses ls = some t ∧ emit m t ls = .ok ws := by
  rw [assembleWith] at h
  cases hcheck : checkLabels [] 0 ls with
  | error e => rw [hcheck] at h; cases h
  | ok u =>
    rw [hcheck] at h
    cases hlabels : labelAddresses ls with
    | none => rw [hlabels] at h; cases h
    | some t => rw [hlabels] at h; exact ⟨rfl, t, rfl, h⟩

/-- Every line emits as many words as layout gave it. -/
theorem length_of_words {m : CodeMaps} {t : LabelTable} {l : Line} {c : List Word} (h : Line.words m t l = .ok c) :
    c.length = l.size t := by
  cases l with
  | label name => cases h; rfl
  | ori op rd v => rw [Line.words] at h; split at h <;> cases h; rfl
  | orri op rd r1 v => rw [Line.words] at h; split at h <;> cases h; rfl
  | math alt rd r1 r2 => cases h; rfl
  | nop => cases h; rfl
  | halt => cases h; rfl
  | word v => rw [Line.words] at h; split at h <;> cases h; rfl
  | la rd name =>
    cases ha : t.address? name with
    | none => simp [Line.words, ha] at h
    | some a =>
      have hc : c = (loadLabel rd a).map (encodeWith m) := by simpa [Line.words, ha] using h.symm
      rw [hc, List.length_map, loadLabel_length, Line.size, ha]
      rfl
  | li rd v =>
    rw [Line.words] at h
    split at h <;> cases h
    rw [List.length_map, loadLiteral_length, Line.size]
    rfl

end Sys2Proof.Laws
end

section
/-! PROOFS. Labels, layout and the sizing loop (R83, R91, R92). -/

namespace Sys2Proof.Proofs

open Sys2Proof.Machine Sys2Proof.Laws

/-- Settles O57: each pass that moves a label makes the program at least one word longer, and it can grow by no more
words than it has lines. -/
theorem sizingLoopSettles : Obligations.SizingLoopSettles := by
  intro ls
  rw [labelAddresses, settle]
  split
  · exact ⟨_, rfl⟩
  · exact settle_isSome (nil_tableLe _) (by omega)

/-- Settles O56: the table is the settled one, and the check of the labels makes every definition the first. -/
theorem labelsNameTheirWords : Obligations.LabelsNameTheirWords := by
  intro m ls ws h
  obtain ⟨hcheck, t, ht, hemit⟩ := assembleWith_eq_ok h
  obtain ⟨chunks, hws, hchunks⟩ := emit_eq_ok hemit
  have hfixed : layout t 0x0010 ls = t := layout_of_settle ht
  refine ⟨t, chunks, hfixed, hws, hchunks.imp fun l c hl => ⟨hl, length_of_words hl⟩, ?_⟩
  rintro pre name post rfl
  obtain ⟨hfirst, _⟩ := label_not_mem_of_checkLabels hcheck
  calc t.address? name = (layout t 0x0010 (pre ++ .label name :: post)).address? name := by rw [hfixed]
    _ = some (0x0010 + (pre.map (Line.size t)).sum) := address?_layout t 0x0010 hfirst post

/-- Settles O58: the check stops at a second definition, and a label no line defines is in no table, so its `la` has
no words. -/
theorem badLabelsAreFatal : Obligations.BadLabelsAreFatal := by
  refine fun m ls => ⟨?duplicate, ?undefined⟩
  case duplicate =>
    rintro pre mid post name rfl
    cases hcheck : checkLabels [] 0 (pre ++ .label name :: (mid ++ .label name :: post)) with
    | ok u =>
      rw [← List.cons_append, ← List.append_assoc] at hcheck
      obtain ⟨hfirst, _⟩ := label_not_mem_of_checkLabels hcheck
      exact absurd (by simp) hfirst
    | error e =>
      have hnone := nothing_seenIn (pre ++ .label name :: (mid ++ .label name :: post))
      obtain ⟨n, i, j, rfl, hlt, hi, hj⟩ := checkLabels_error hnone List.drop_zero hcheck
      exact ⟨n, i, j, by rw [assembleWith, hcheck]; rfl, hlt, hi, hj⟩
  case undefined =>
    intro rd name hla hundefined
    cases h : assembleWith m ls with
    | error e => exact ⟨e, rfl⟩
    | ok ws =>
      obtain ⟨_, t, ht, hemit⟩ := assembleWith_eq_ok h
      obtain ⟨c, hc⟩ := words_of_emit hemit hla
      have hnone : t.address? name = none := by
        rw [← layout_of_settle ht]
        exact address?_layout_of_undefined t _ hundefined
      simp [Line.words, hnone] at hc

end Sys2Proof.Proofs
end
